-- ==== Sys2Proof/Word.lean ====
section
/-! DEFINITION. Word.lean: the word types of the framer (00_scope.md R7, 30_encoding.md R70). Everything a later test
could show wrong (byte order, bit fields, the CRC) stands in Sys2Proof/Machine/. -/

namespace Sys2Proof

/-- One byte: a frame byte, a device address, a function code (00_scope.md R7, R9). -/
abbrev Byte := BitVec 8

/-- One 16-bit value: a register address, a value or count, a CRC, a length operand (00_scope.md R7). -/
abbrev Word := BitVec 16

/-- A command word on the host port (30_encoding.md R70). -/
abbrev CmdWord := BitVec 40

/-- A byte string in wire order, byte 0 first (00_scope.md R9). -/
abbrev Frame := List Byte

end Sys2Proof
end

