-- ==== Sys2Proof/Config.lean ====
section
/-! DEFINITION. Config.lean: the configuration record of 00_scope.md R5, and the free values of the model. The default
values and the constraints of R6 stand in Machine/Params.lean. -/

namespace Sys2Proof

/-- The implementation parameters of 00_scope.md R5 that are no fixed constant. The record is fixed for the life of the
machine (10_state.md R40); a statement about every state is a statement about every such record. -/
structure Config where
  /-- `ADDR_MIN`: lowest device address SET_ADDR accepts. -/
  addrMin : Nat
  /-- `ADDR_MAX`: highest device address SET_ADDR accepts. -/
  addrMax : Nat
  /-- `ADDR_RESET`: device address after reset. -/
  addrReset : Nat
  /-- `MAX_FRAME`: capacity of BUF in bytes (OPEN, 92_eei_decisions.md D15). -/
  maxFrame : Nat
  /-- `FC_READ`: function code of a register read. -/
  fcRead : Byte
  /-- `FC_WRITE`: function code of a register write. -/
  fcWrite : Byte
  /-- `EXC_FLAG`: the bits that mark the exception variant of a function code. -/
  excFlag : Byte
  /-- `READ_HDR_LEN`: bytes before the payload of a read response. -/
  readHdrLen : Nat
  /-- `T_IFD` in milliseconds, where an implementation has given it (OPEN, D16); no rule depends on it (R11). -/
  tIfdMs : Option Nat
  /-- `T_SEND` in milliseconds: the link's, no rule depends on it (R250). -/
  tSendMs : Nat
  /-- `T_RECV` in milliseconds: the link's, no rule depends on it (R250). -/
  tRecvMs : Nat
deriving DecidableEq, Repr

/-- A free byte: what a host read of BUF gives while the framer is busy, and what it gives for a cell that has held no
value since reset (20_memory.md R51, a free draw). First argument: the state's draw counter; second: the index read.
Nothing constrains it (log entries 4, 8, 9). -/
opaque Config.freeBufByte : Nat → Nat → Byte

/-- A free byte: what `tx_data` carries while `tx_valid` is 0, which 10_state.md R24 does not state (log entry 14). -/
opaque Config.freeTxData : Nat → Byte

/-- A free choice: whether `rx_eof` or an error on `rx_status` decides when both are seen on one step of RECV, which
10_state.md R28 and R29 do not state (log entry 13). -/
opaque Config.eofBeforeStatus : Nat → Bool

end Sys2Proof
end

