-- ==== Sys2Proof/Syntax.lean ====
section
/-! DEFINITION. Syntax.lean: one constructor of `Instr` per row of spec/opcode_table.json. An operand field that a
command ignores is kept (30_encoding.md R71), so that no bit of a command word is lost. -/

namespace Sys2Proof

/-- `REQ.kind` (10_state.md R36): which of the two link transactions. -/
inductive Kind where
  | read
  | write
deriving DecidableEq, Repr

/-- The instructions: the commands and illegal words of 30_encoding.md R70 to R73, and the wire frames of R74 to R79
(log entry 15). In a command, the arguments are operand A and then operand B. -/
inductive Instr where
  /-- READ_REGS: A = first register address, B = count (42_commands.md R160). -/
  | readRegs (reg count : Word)
  /-- WRITE_REG: A = register address, B = value (42_commands.md R161). -/
  | writeReg (reg value : Word)
  /-- SET_ADDR: A = new device address, B ignored (42_commands.md R170). -/
  | setAddr (newAddr ignoredB : Word)
  /-- GET_ADDR: A and B ignored (42_commands.md R171). -/
  | getAddr (ignoredA ignoredB : Word)
  /-- CRC_APPEND: A = data length, B ignored (40_crc.md R110). -/
  | crcAppend (n ignoredB : Word)
  /-- CRC_CHECK: A = frame length with its CRC, B ignored (40_crc.md R111). -/
  | crcCheck (n ignoredB : Word)
  /-- op 0x0, illegal (42_commands.md R180). -/
  | illegalOp0 (a b : Word)
  /-- op 0x7, illegal (42_commands.md R180). -/
  | illegalOp7 (a b : Word)
  /-- op 0x8, illegal (42_commands.md R180). -/
  | illegalOp8 (a b : Word)
  /-- op 0x9, illegal (42_commands.md R180). -/
  | illegalOp9 (a b : Word)
  /-- op 0xA, illegal (42_commands.md R180). -/
  | illegalOpA (a b : Word)
  /-- op 0xB, illegal (42_commands.md R180). -/
  | illegalOpB (a b : Word)
  /-- op 0xC, illegal (42_commands.md R180). -/
  | illegalOpC (a b : Word)
  /-- op 0xD, illegal (42_commands.md R180). -/
  | illegalOpD (a b : Word)
  /-- op 0xE, illegal (42_commands.md R180). -/
  | illegalOpE (a b : Word)
  /-- op 0xF, illegal (42_commands.md R180). -/
  | illegalOpF (a b : Word)
  /-- rsv ≠ 0, illegal whatever op is (30_encoding.md R73, 42_commands.md R180). -/
  | illegalRsv (rsv op : BitVec 4) (a b : Word)
  /-- FRAME_READ_REQ: the request READ_REGS sends (30_encoding.md R75, R76). -/
  | frameReadReq (dev : Byte) (reg count : Word)
  /-- FRAME_WRITE_REQ: the request WRITE_REG sends (30_encoding.md R75, R76). -/
  | frameWriteReq (dev : Byte) (reg value : Word)
  /-- FRAME_READ_RESP: a normal read response; `hdrRest` is header bytes 2 to READ_HDR_LEN - 1 (30_encoding.md R77). -/
  | frameReadResp (dev : Byte) (hdrRest payload : Frame)
  /-- FRAME_WRITE_ECHO: a normal write response (30_encoding.md R78). -/
  | frameWriteEcho (dev : Byte) (reg value : Word)
  /-- FRAME_EXCEPTION: an exception response to a request of kind `kind`; `rest` is bytes 3 to n - 3 (30_encoding.md
  R79). -/
  | frameException (kind : Kind) (dev code : Byte) (rest : Frame)
deriving DecidableEq, Repr

end Sys2Proof
end

