-- ==== Sys2Proof/Machine/Params.lean ====
section
/-! DEFINITION. Machine/Params.lean: the default values of the configuration (00_scope.md R5), the constraints on it
(R6) and the fixed constants. -/

namespace Sys2Proof.Machine

/-- The default configuration of 00_scope.md R5 (log entries 1 and 2). -/
def defaultConfig : Config where
  addrMin := 1
  addrMax := 247
  addrReset := 1
  maxFrame := 256
  fcRead := 0x03
  fcWrite := 0x06
  excFlag := 0x80
  readHdrLen := 3
  tIfdMs := none
  tSendMs := 2000
  tRecvMs := 500

/-- The constraints of 00_scope.md R6; a configuration that breaks one is refused. -/
def configOk (c : Config) : Bool :=
  decide (c.addrMin ≤ c.addrReset) && decide (c.addrReset ≤ c.addrMax) && decide (c.addrMax ≤ 255) &&
  decide (8 ≤ c.maxFrame) && decide (c.maxFrame ≤ 65535) &&
  decide (c.fcRead ≠ c.fcWrite) && decide (c.fcRead &&& c.excFlag = 0) && decide (c.fcWrite &&& c.excFlag = 0) &&
  decide (c.excFlag ≠ 0) &&
  decide (3 ≤ c.readHdrLen) && decide (c.readHdrLen + 2 ≤ c.maxFrame)

/-- `MIN_RESP`: the shortest response any check looks past (00_scope.md R5, 92_eei_decisions.md D11). -/
def minResp : Nat := 5

/-- `CRC_POLY`, fixed (00_scope.md R5, 40_crc.md R100). -/
def crcPoly : Word := 0xA001

/-- `CRC_SEED`, fixed (00_scope.md R5, 40_crc.md R100). -/
def crcSeed : Word := 0xFFFF

/-- The length of a request and of a write echo (30_encoding.md R75, R78). -/
def requestLen : Nat := 8

/-- The most bytes of a response to a request of this kind: `cap` of 41_framing.md R130. -/
def responseCap (c : Config) : Kind → Nat
  | .read => c.maxFrame
  | .write => requestLen

end Sys2Proof.Machine
end

