-- ==== Sys2Proof/Machine/State.lean ====
section
/-! DEFINITION. Machine/State.lean: the state of 10_state.md as plain data, the input events and port samples of R24 to
R28, the faults and refusals, and the state after reset (R41, 70_reset_and_hazards.md R230). -/

namespace Sys2Proof.Machine

/-- The automaton states of 10_state.md R26; codes 6 and 7 are left out (30_encoding.md R84, log entry 17). -/
inductive Fsm where
  | idle
  | gapPre
  | flush
  | send
  | gapPost
  | recv
deriving DecidableEq, Repr

/-- The error codes of 60_exceptions.md R200; 13 to 15 are never produced and are left out (93 U13, log entry 17). -/
inductive ErrCode where
  | ok
  | notConnected
  | timedOut
  | ioError
  | short
  | addrMismatch
  | badOpcode
  | deviceException
  | tooLarge
  | crcMismatch
  | echoMismatch
  | invalidArg
  | illegalCmd
deriving DecidableEq, Repr

/-- The latched request REQ (10_state.md R36). -/
structure Request where
  kind : Kind
  addr : Byte
  fc : Byte
  reg : Word
  val : Word
deriving DecidableEq, Repr

/-- The outcomes of a send: the argument of `TxDone` (10_state.md R27). -/
inductive TxOutcome where
  | ok
  | notConnected
  | timedOut
  | ioError
deriving DecidableEq, Repr

/-- The outcomes of a receive: the argument of `RxDone` (10_state.md R27). -/
inductive RxOutcome where
  | frame (f : Frame)
  | notConnected
  | timedOut
  | ioError
deriving DecidableEq, Repr

/-- The input events of 10_state.md R27. -/
inductive Event where
  | cmd (w : CmdWord)
  | hostBufWrite (i : Word) (v : Byte)
  | gapElapsed
  | flushAck
  | txDone (o : TxOutcome)
  | rxDone (o : RxOutcome)
  | reset
deriving DecidableEq, Repr

/-- One step of the byte-level ports: the value of every input signal of 10_state.md R24 and R25 on one clock step, and
whether the inter-frame delay timer (60_exceptions.md R210) runs out on it (log entry 19). -/
structure PortSample where
  rst : Bool
  cmdValid : Bool
  cmdWord : CmdWord
  bufWe : Bool
  bufWaddr : Word
  bufWdata : Byte
  bufRaddr : Word
  linkUp : Bool
  flushAck : Bool
  txReady : Bool
  txStatus : BitVec 2
  rxValid : Bool
  rxData : Byte
  rxEof : Bool
  rxStatus : BitVec 2
  ifdElapsed : Bool
deriving DecidableEq, Repr

/-- What the environment delivers on one step: an event of 10_state.md R27, with the level of `link_up` on that step,
or one step of the byte-level ports. -/
inductive Input where
  | event (linkUp : Bool) (e : Event)
  | ports (p : PortSample)
deriving DecidableEq, Repr

/-- The frame buffer's cells that hold a value, as (index, byte) pairs with rising indices. An index that is not listed
holds no value (10_state.md R34, 70_reset_and_hazards.md R231). -/
abbrev Memory := List Host.Cell

/-- The state of the framer, and last the model's own fields (log entries 1, 5, 7, 8). -/
structure State where
  /-- `fsm` (10_state.md R26). -/
  fsm : Fsm
  /-- Register `ADDR` (10_state.md R23). -/
  addr : Byte
  /-- STATUS.DONE (10_state.md R30). -/
  done : Bool
  /-- STATUS.ERR (10_state.md R30). -/
  err : ErrCode
  /-- STATUS.EXC_CODE (10_state.md R30). -/
  excCode : Byte
  /-- Register `RESULT` (10_state.md R31). -/
  result : Word
  /-- Register `RX_COUNT` (10_state.md R32). -/
  rxCount : Word
  /-- Register `CRC` (10_state.md R33). -/
  crc : Word
  /-- `BUF` (10_state.md R34). -/
  buf : Memory
  /-- `TXBUF` (10_state.md R35). -/
  txbuf : Frame
  /-- `REQ` (10_state.md R36). -/
  req : Request
  /-- `tx_idx` (10_state.md R37). -/
  txIdx : Nat
  /-- `rxacc` (10_state.md R37). -/
  rxacc : Frame
  /-- `tx_recent` (10_state.md R38). -/
  txRecent : Bool
  /-- The configuration: no state of the framer (10_state.md R40); no step changes it (log entry 1). -/
  cfg : Config
  /-- The input `link_up` on the step being taken (10_state.md R24, log entry 7). -/
  linkUp : Bool
  /-- What the environment still delivers, in order (10_state.md R27, log entry 5). -/
  inputs : List Input
  /-- Counts the steps taken: the argument of the free values (log entry 8). -/
  draws : Nat
deriving DecidableEq, Repr

/-- The two commands that read BUF (20_memory.md R50). -/
inductive CrcCommand where
  | crcAppend
  | crcCheck
deriving DecidableEq, Repr

/-- Why a step stops with a fault. -/
inductive Fault where
  /-- Raised by CRC_APPEND and CRC_CHECK over a cell of BUF that has held no value since reset; it names the command
  (70_reset_and_hazards.md R231, 93 U3). Safe: the hardware computes over whatever the cell holds. -/
  | unwrittenCell (command : CrcCommand)
  /-- Raised by a step whose next event the current state of the automaton does not list (10_state.md R27,
  42_commands.md R162: no step). Safe: such an event cannot occur. -/
  | noStep
  /-- Raised by a step to which the environment delivers no event (42_commands.md R163, 93 U11: no step, that is,
  stuck). Safe: the framer waits and changes no state. -/
  | noInput
deriving DecidableEq, Repr

/-- Why a step is refused. -/
inductive Refusal where
  /-- Raised by an arm of `exec` whose instruction has no meaning yet. Safe. -/
  | notModelled (mnemonic : String)
  /-- Raised by every instruction and every step under a configuration that breaks 00_scope.md R6 (93 U9: refused). Safe:
  the spec gives such a configuration no meaning. -/
  | badConfig
deriving DecidableEq, Repr

/-- The state right after reset under a configuration (10_state.md R41); TXBUF and REQ: log entry 3; `linkUp`: log entry
7; `inputs`: log entry 5; `draws`: log entry 8. -/
def State.resetWith (c : Config) : State where
  fsm := .idle
  addr := BitVec.ofNat 8 c.addrReset
  done := false
  err := .ok
  excCode := 0
  result := 0
  rxCount := 0
  crc := 0
  buf := []
  txbuf := [0, 0, 0, 0, 0, 0, 0, 0]
  req := Request.mk .read 0 0 0 0
  txIdx := 0
  rxacc := []
  txRecent := false
  cfg := c
  linkUp := false
  inputs := []
  draws := 0

/-- The state right after reset, under the default configuration (log entry 1). -/
def State.reset : State := State.resetWith defaultConfig

end Sys2Proof.Machine
end

