-- ==== Sys2Proof/Machine/Buf.lean ====
section
/-! DEFINITION. Machine/Buf.lean: reading and writing the cells of the frame buffer as data (20_memory.md R50 to R53),
and the canonical form of that data. -/

namespace Sys2Proof.Machine

/-- The canonical form: indices strictly rise. (An unlisted index holds no value, so no listed entry can equal it.) -/
abbrev Memory.wf (m : Memory) : Prop := m.Pairwise (fun x y => x.1 < y.1)

/-- The value a cell holds, if it has held one since reset. -/
def Memory.read : Memory → Nat → Option Byte
  | [], _ => none
  | (a, v) :: m, i => if a = i then some v else Memory.read m i

/-- Give a cell a value. -/
def Memory.write : Memory → Nat → Byte → Memory
  | [], i, v => [(i, v)]
  | (a, w) :: m, i, v =>
    if i < a then (i, v) :: (a, w) :: m
    else if i = a then (i, v) :: m
    else (a, w) :: Memory.write m i v

/-- The cells i, i + 1, …, i + n - 1, if each holds a value. -/
def Memory.readRange (m : Memory) (i : Nat) : Nat → Option Frame
  | 0 => some []
  | n + 1 =>
    match m.read i with
    | none => none
    | some v =>
      match Memory.readRange m (i + 1) n with
      | none => none
      | some vs => some (v :: vs)

/-- Give the cells i, i + 1, … the bytes of `f` in order. -/
def Memory.writeFrom (m : Memory) (i : Nat) : Frame → Memory
  | [] => m
  | v :: f => Memory.writeFrom (m.write i v) (i + 1) f

end Sys2Proof.Machine
end

