-- ==== Sys2Proof/Machine/Flags.lean ====
section
/-! DEFINITION. Machine/Flags.lean: the codes of 10_state.md R26 and 60_exceptions.md R200, and the STATUS register as
the host reads it (10_state.md R30). -/

namespace Sys2Proof.Machine

/-- The code of an automaton state (10_state.md R26). -/
def fsmCode : Fsm → BitVec 3
  | .idle => 0
  | .gapPre => 1
  | .flush => 2
  | .send => 3
  | .gapPost => 4
  | .recv => 5

/-- The code of an error (60_exceptions.md R200). -/
def errCode : ErrCode → BitVec 4
  | .ok => 0
  | .notConnected => 1
  | .timedOut => 2
  | .ioError => 3
  | .short => 4
  | .addrMismatch => 5
  | .badOpcode => 6
  | .deviceException => 7
  | .tooLarge => 8
  | .crcMismatch => 9
  | .echoMismatch => 10
  | .invalidArg => 11
  | .illegalCmd => 12

/-- The classes of errors of 60_exceptions.md R201: information for the host only. -/
inductive ErrClass where
  | success
  | configuration
  | transport
  | protocol
  | deviceException
  | illegalCommand
deriving DecidableEq, Repr

/-- The class of an error (60_exceptions.md R201). -/
def errClass : ErrCode → ErrClass
  | .ok => .success
  | .notConnected => .transport
  | .timedOut => .transport
  | .ioError => .transport
  | .short => .protocol
  | .addrMismatch => .protocol
  | .badOpcode => .protocol
  | .deviceException => .deviceException
  | .tooLarge => .protocol
  | .crcMismatch => .protocol
  | .echoMismatch => .protocol
  | .invalidArg => .configuration
  | .illegalCmd => .illegalCommand

/-- STATUS.BUSY: 1 exactly when fsm ≠ IDLE (10_state.md R30). -/
def State.busy (s : State) : Bool := decide (s.fsm ≠ .idle)

/-- Register STATUS: EXC_CODE in 15:8, ERR in 7:4, zeros in 3:2, DONE in 1, BUSY in 0 (10_state.md R30). -/
def State.status (s : State) : Word :=
  s.excCode ++ errCode s.err ++ 0#2 ++ BitVec.ofBool s.done ++ BitVec.ofBool s.busy

end Sys2Proof.Machine
end

