-- ==== Sys2Proof/Machine/Bytes.lean ====
section
/-! DEFINITION. Machine/Bytes.lean: byte selection and byte order (00_scope.md R8, 20_memory.md R55). -/

namespace Sys2Proof.Machine

/-- `hi(v)` = v[15:8] (00_scope.md R8). -/
def hiByte (v : Word) : Byte := v.extractLsb' 8 8

/-- `lo(v)` = v[7:0] (00_scope.md R8). -/
def loByte (v : Word) : Byte := v.extractLsb' 0 8

/-- `zext_16(b)` (00_scope.md R8). -/
def zext16 (b : Byte) : Word := b.setWidth 16

/-- The 16-bit value whose bytes on the wire are `h` then `l` (high byte first, 20_memory.md R55). -/
def wordOf (h l : Byte) : Word := h ++ l

/-- The `n` lowest bytes of a number, the least significant first: how spec/opcode_table.json numbers the bits of a
row that is longer than one word (log entry 16). -/
def bytesOfNat : Nat → Nat → Frame
  | 0, _ => []
  | n + 1, w => BitVec.ofNat 8 w :: bytesOfNat n (w / 256)

end Sys2Proof.Machine
end

