-- ==== Sys2Proof/Machine/Crc.lean ====
section
/-! DEFINITION. Machine/Crc.lean: the CRC-16 of 40_crc.md R100 to R103, defined once and used by the request encoder,
the response validator, CRC_APPEND and CRC_CHECK (R112). -/

namespace Sys2Proof.Machine

/-- One of the eight shifts of `crc_step` (40_crc.md R100). -/
def crcShift (c : Word) : Word :=
  if c.getLsbD 0 then (c >>> 1) ^^^ crcPoly else c >>> 1

/-- The "repeat n times" of `crc_step` (40_crc.md R100). -/
def crcShifts : Nat → Word → Word
  | 0, c => c
  | n + 1, c => crcShifts n (crcShift c)

/-- `crc_step(c, b)` (40_crc.md R100). -/
def crcStep (c : Word) (b : Byte) : Word := crcShifts 8 (c ^^^ zext16 b)

/-- The CRC register after the bytes of `f`, from any start value. -/
def crcFrom (c : Word) : Frame → Word
  | [] => c
  | b :: f => crcFrom (crcStep c b) f

/-- `crc16(f)`: the fold of `crc_step` from the seed, with no final step (40_crc.md R101). -/
def crc16 (f : Frame) : Word := crcFrom crcSeed f

/-- `crcBytes(f)`: high byte first (40_crc.md R102). -/
def crcBytes (f : Frame) : Frame := [hiByte (crc16 f), loByte (crc16 f)]

/-- `withCrc(f)` (40_crc.md R102). -/
def withCrc (f : Frame) : Frame := f ++ crcBytes f

/-- `crcOk(g)`: room for a CRC, and the last two bytes are the high-first CRC of the rest (40_crc.md R103). -/
def crcOk (g : Frame) : Bool :=
  decide (2 ≤ g.length) && decide (g.drop (g.length - 2) = crcBytes (g.take (g.length - 2)))

end Sys2Proof.Machine
end

