-- ==== Sys2Proof/WellFormed.lean ====
section
/-! DEFINITION. WellFormed.lean: which terms of `Instr` stand for words and frames of the encodings of 30_encoding.md.
A command's operands have no constraint (R71); a frame's lengths do (R77, R79). -/

namespace Sys2Proof

/-- The term is the reading of some command word or frame under the configuration `c`. -/
def Instr.wellFormed (c : Config) : Instr → Bool
  | .readRegs _ _ => true
  | .writeReg _ _ => true
  | .setAddr _ _ => true
  | .getAddr _ _ => true
  | .crcAppend _ _ => true
  | .crcCheck _ _ => true
  | .illegalOp0 _ _ => true
  | .illegalOp7 _ _ => true
  | .illegalOp8 _ _ => true
  | .illegalOp9 _ _ => true
  | .illegalOpA _ _ => true
  | .illegalOpB _ _ => true
  | .illegalOpC _ _ => true
  | .illegalOpD _ _ => true
  | .illegalOpE _ _ => true
  | .illegalOpF _ _ => true
  | .illegalRsv rsv _ _ _ => decide (rsv ≠ 0)
  | .frameReadReq _ _ _ => true
  | .frameWriteReq _ _ _ => true
  | .frameReadResp _ hdrRest payload =>
    decide (hdrRest.length + 2 = c.readHdrLen) && decide (c.readHdrLen + payload.length + 2 ≤ c.maxFrame)
  | .frameWriteEcho _ _ _ => true
  | .frameException kind _ _ rest => decide (rest.length + 5 ≤ Machine.responseCap c kind)

end Sys2Proof
end

