-- ==== Sys2Proof/Decode.lean ====
section
/-! DEFINITION. Decode.lean: the decoder of command words (30_encoding.md R70 to R73) and of wire frames (R74 to R80),
total and rejecting by name, and after it the encoder. -/

namespace Sys2Proof

open Machine

/-- What an instruction is read from: a word on the command port, the frame the framer is transmitting, or a frame
received as the response to a request of a kind (the framer tells a response by its request, 30_encoding.md R80). -/
inductive Encoded where
  | command (w : CmdWord)
  | request (f : Frame)
  | response (kind : Kind) (f : Frame)
deriving DecidableEq, Repr

/-- Why a frame is no row of the table. No command word is ever rejected: each has its row (30_encoding.md R83). -/
inductive DecodeError where
  /-- A request that is not 8 bytes (30_encoding.md R75). -/
  | requestLength
  /-- A request whose function code is neither FC_READ nor FC_WRITE (30_encoding.md R75). -/
  | requestCode
  /-- A response longer than the kind's capacity (41_framing.md R130 check 1). -/
  | responseTooLarge
  /-- A response shorter than MIN_RESP (check 2), or a normal one too short for its kind (checks 7w, 7r). -/
  | responseShort
  /-- The last two bytes are not the CRC of the rest (40_crc.md R103, check 3). -/
  | badCrc
  /-- A response function code that is neither REQ.fc nor its exception variant (30_encoding.md R80, check 6). -/
  | responseCode
deriving DecidableEq, Repr

/-- The function code of a request of this kind (41_framing.md R120). -/
def functionCode (c : Config) : Kind → Byte
  | .read => c.fcRead
  | .write => c.fcWrite

/-- The exception variant of a function code (30_encoding.md R79). -/
def exceptionCode (c : Config) (fc : Byte) : Byte := fc ||| c.excFlag

/-- Field `op` of a command word (30_encoding.md R70). -/
def cmdOp (w : CmdWord) : BitVec 4 := w.extractLsb' 0 4

/-- Field `rsv` of a command word (30_encoding.md R70). -/
def cmdRsv (w : CmdWord) : BitVec 4 := w.extractLsb' 4 4

/-- Operand A of a command word (30_encoding.md R71). -/
def cmdA (w : CmdWord) : Word := w.extractLsb' 8 16

/-- Operand B of a command word (30_encoding.md R71). -/
def cmdB (w : CmdWord) : Word := w.extractLsb' 24 16

/-- The command opcode map (30_encoding.md R72); the last line is op 0xF. -/
def decodeOp (op : BitVec 4) (a b : Word) : Instr :=
  match op.toNat with
  | 0x0 => .illegalOp0 a b
  | 0x1 => .readRegs a b
  | 0x2 => .writeReg a b
  | 0x3 => .setAddr a b
  | 0x4 => .getAddr a b
  | 0x5 => .crcAppend a b
  | 0x6 => .crcCheck a b
  | 0x7 => .illegalOp7 a b
  | 0x8 => .illegalOp8 a b
  | 0x9 => .illegalOp9 a b
  | 0xA => .illegalOpA a b
  | 0xB => .illegalOpB a b
  | 0xC => .illegalOpC a b
  | 0xD => .illegalOpD a b
  | 0xE => .illegalOpE a b
  | _ => .illegalOpF a b

/-- The decoder of command words: rsv is looked at before op (42_commands.md R151, 30_encoding.md R73). -/
def decodeCommand (w : CmdWord) : Instr :=
  if cmdRsv w ≠ 0 then .illegalRsv (cmdRsv w) (cmdOp w) (cmdA w) (cmdB w)
  else decodeOp (cmdOp w) (cmdA w) (cmdB w)

/-- The decoder of request frames (30_encoding.md R75, R76). -/
def decodeRequest (c : Config) (f : Frame) : Except DecodeError Instr :=
  match f with
  | [dev, fc, r1, r0, v1, v0, _, _] =>
    if crcOk f = false then .error .badCrc
    else if fc = c.fcRead then .ok (.frameReadReq dev (wordOf r1 r0) (wordOf v1 v0))
    else if fc = c.fcWrite then .ok (.frameWriteReq dev (wordOf r1 r0) (wordOf v1 v0))
    else .error .requestCode
  | _ => .error .requestLength

/-- A normal read response from its bytes between the function code and the CRC (30_encoding.md R77). -/
def decodeReadBody (c : Config) (dev : Byte) (body : Frame) : Except DecodeError Instr :=
  if body.length + 2 < c.readHdrLen then .error .responseShort
  else .ok (.frameReadResp dev (body.take (c.readHdrLen - 2)) (body.drop (c.readHdrLen - 2)))

/-- A normal write response from its bytes between the function code and the CRC (30_encoding.md R78). -/
def decodeWriteBody (dev : Byte) (body : Frame) : Except DecodeError Instr :=
  match body with
  | [r1, r0, v1, v0] => .ok (.frameWriteEcho dev (wordOf r1 r0) (wordOf v1 v0))
  | _ => .error .responseShort

/-- A response whose length and CRC are good, from its bytes before the CRC: byte 1 tells the kind (30_encoding.md
R80). -/
def decodeResponseBody (c : Config) (kind : Kind) (f : Frame) : Except DecodeError Instr :=
  match f with
  | dev :: fc :: x :: xs =>
    if fc = exceptionCode c (functionCode c kind) then .ok (.frameException kind dev x xs)
    else if fc ≠ functionCode c kind then .error .responseCode
    else
      match kind with
      | .read => decodeReadBody c dev (x :: xs)
      | .write => decodeWriteBody dev (x :: xs)
  | _ => .error .responseShort

/-- The decoder of response frames (30_encoding.md R77 to R82), in the order of 41_framing.md R130. -/
def decodeResponse (c : Config) (kind : Kind) (f : Frame) : Except DecodeError Instr :=
  if responseCap c kind < f.length then .error .responseTooLarge
  else if f.length < minResp then .error .responseShort
  else if crcOk f = false then .error .badCrc
  else decodeResponseBody c kind (f.take (f.length - 2))

/-- The decoder. -/
def decode (c : Config) : Encoded → Except DecodeError Instr
  | .command w => .ok (decodeCommand w)
  | .request f => decodeRequest c f
  | .response kind f => decodeResponse c kind f

/-! ## The encoder -/

/-- `cmd_word = b << 24 | a << 8 | rsv << 4 | op` (30_encoding.md R70). -/
def encodeCommand (rsv op : BitVec 4) (a b : Word) : CmdWord := b ++ a ++ rsv ++ op

/-- The 8-byte request of 30_encoding.md R75. -/
def requestFrame (dev fc : Byte) (reg val : Word) : Frame :=
  withCrc [dev, fc, hiByte reg, loByte reg, hiByte val, loByte val]

/-- The normal read response of 30_encoding.md R77. -/
def readResponseFrame (c : Config) (dev : Byte) (hdrRest payload : Frame) : Frame :=
  withCrc (dev :: c.fcRead :: (hdrRest ++ payload))

/-- The exception response of 30_encoding.md R79. -/
def exceptionFrame (c : Config) (kind : Kind) (dev code : Byte) (rest : Frame) : Frame :=
  withCrc (dev :: exceptionCode c (functionCode c kind) :: code :: rest)

/-- The encoder: the command word or the frame of an instruction (30_encoding.md R70 to R79). -/
def encode (c : Config) : Instr → Encoded
  | .readRegs a b => .command (encodeCommand 0x0 0x1 a b)
  | .writeReg a b => .command (encodeCommand 0x0 0x2 a b)
  | .setAddr a b => .command (encodeCommand 0x0 0x3 a b)
  | .getAddr a b => .command (encodeCommand 0x0 0x4 a b)
  | .crcAppend a b => .command (encodeCommand 0x0 0x5 a b)
  | .crcCheck a b => .command (encodeCommand 0x0 0x6 a b)
  | .illegalOp0 a b => .command (encodeCommand 0x0 0x0 a b)
  | .illegalOp7 a b => .command (encodeCommand 0x0 0x7 a b)
  | .illegalOp8 a b => .command (encodeCommand 0x0 0x8 a b)
  | .illegalOp9 a b => .command (encodeCommand 0x0 0x9 a b)
  | .illegalOpA a b => .command (encodeCommand 0x0 0xA a b)
  | .illegalOpB a b => .command (encodeCommand 0x0 0xB a b)
  | .illegalOpC a b => .command (encodeCommand 0x0 0xC a b)
  | .illegalOpD a b => .command (encodeCommand 0x0 0xD a b)
  | .illegalOpE a b => .command (encodeCommand 0x0 0xE a b)
  | .illegalOpF a b => .command (encodeCommand 0x0 0xF a b)
  | .illegalRsv rsv op a b => .command (encodeCommand rsv op a b)
  | .frameReadReq dev reg count => .request (requestFrame dev c.fcRead reg count)
  | .frameWriteReq dev reg value => .request (requestFrame dev c.fcWrite reg value)
  | .frameReadResp dev hdrRest payload => .response .read (readResponseFrame c dev hdrRest payload)
  | .frameWriteEcho dev reg value => .response .write (requestFrame dev c.fcWrite reg value)
  | .frameException kind dev code rest => .response kind (exceptionFrame c kind dev code rest)

/-! ## The reading of a table word -/

/-- What a row's bits stand for, numbered as spec/opcode_table.json numbers them: up to 40 bits a command word; more
bits a frame, its first byte in bits 7..0, read as a request if it is one and else as a response (log entry 16). -/
def tableEncoded (c : Config) (nbits w : Nat) : Encoded :=
  if nbits ≤ 40 then .command (BitVec.ofNat 40 (w % 2 ^ nbits))
  else
    let f := bytesOfNat (nbits / 8) w
    match decodeRequest c f with
    | .ok _ => .request f
    | .error _ =>
      match decodeResponse c .write f with
      | .ok _ => .response .write f
      | .error _ => .response .read f

/-- The instruction the decoder reads from the bits of a table row, under the default configuration. -/
def decodeTableWord (nbits w : Nat) : Option Instr :=
  match decode defaultConfig (tableEncoded defaultConfig nbits w) with
  | .ok i => some i
  | .error _ => none

end Sys2Proof
end

