-- ==== Sys2Proof/Machine/Operands.lean ====
section
/-! DEFINITION. Machine/Operands.lean: the operand forms of the commands (a device address, a length, the operands of a
request) and the outcomes the link's status signals carry. -/

namespace Sys2Proof.Machine

/-- Operand A of SET_ADDR is in [ADDR_MIN, ADDR_MAX], all 16 bits compared (42_commands.md R170). -/
def addrInRange (c : Config) (a : Word) : Bool :=
  decide (c.addrMin ≤ a.toNat) && decide (a.toNat ≤ c.addrMax)

/-- A length operand, on unbounded naturals (00_scope.md R8, 42_commands.md R166). -/
def lengthOf (n : Word) : Nat := n.toNat

/-- A length stored in a 16-bit register; each rule that stores one says why it fits (00_scope.md R8). -/
def lengthWord (n : Nat) : Word := BitVec.ofNat 16 n

/-- The request that operands A and B of a link command latch (42_commands.md R152). -/
def requestOf (kind : Kind) (dev fc : Byte) (a b : Word) : Request := Request.mk kind dev fc a b

/-- The error code of a failed send (42_commands.md R157). -/
def txError : TxOutcome → ErrCode
  | .ok => .ok
  | .notConnected => .notConnected
  | .timedOut => .timedOut
  | .ioError => .ioError

/-- `tx_status` (10_state.md R24): 00 no error; 01 not connected; 10 timed out; 11 I/O error. -/
def txStatusOutcome (v : BitVec 2) : TxOutcome :=
  if v = 0b00 then .ok else if v = 0b01 then .notConnected else if v = 0b10 then .timedOut else .ioError

/-- A nonzero `rx_status`, with what has been collected (10_state.md R29): a time-out after some bytes is the end of a
frame. -/
def rxStatusOutcome (v : BitVec 2) (acc : Frame) : RxOutcome :=
  if v = 0b01 then .notConnected
  else if v = 0b11 then .ioError
  else if acc = [] then .timedOut
  else .frame acc

end Sys2Proof.Machine
end

