-- ==== Sys2Proof/Machine/Framing.lean ====
section
/-! DEFINITION. Machine/Framing.lean: the request encoder and the response validator of 41_framing.md R120 and R130. -/

namespace Sys2Proof.Machine

/-- `encodeReq(REQ)` (41_framing.md R120). -/
def encodeReq (q : Request) : Frame := requestFrame q.addr q.fc q.reg q.val

/-- What `validate` answers: an error code, a result and an exception code (41_framing.md R130). -/
structure Verdict where
  err : ErrCode
  result : Word
  excCode : Byte
deriving DecidableEq, Repr

/-- The verdict of a failing check that carries no exception code (41_framing.md R130). -/
def rejects (e : ErrCode) : Verdict := Verdict.mk e 0 0

/-- Check 8w and the success of a write (41_framing.md R130). -/
def validateEcho (q : Request) (f : Frame) : Verdict :=
  if f.length ≠ requestLen then rejects .short
  else if (f.drop 2).take 4 ≠ [hiByte q.reg, loByte q.reg, hiByte q.val, loByte q.val] then rejects .echoMismatch
  else Verdict.mk .ok q.val 0

/-- Check 7r and the success of a read: the payload length (41_framing.md R130, R131). -/
def validateRead (c : Config) (f : Frame) : Verdict :=
  if f.length < c.readHdrLen + 2 then rejects .short
  else Verdict.mk .ok (lengthWord (f.length - 2 - c.readHdrLen)) 0

/-- `validate(REQ, f)`: the first failing check decides (41_framing.md R130). -/
def validate (c : Config) (q : Request) (f : Frame) : Verdict :=
  if responseCap c q.kind < f.length then rejects .tooLarge
  else if f.length < minResp then rejects .short
  else if crcOk f = false then rejects .crcMismatch
  else if f.getD 0 0 ≠ q.addr then rejects .addrMismatch
  else if f.getD 1 0 = exceptionCode c q.fc then Verdict.mk .deviceException 0 (f.getD 2 0)
  else if f.getD 1 0 ≠ q.fc then rejects .badOpcode
  else
    match q.kind with
    | .write => validateEcho q f
    | .read => validateRead c f

end Sys2Proof.Machine
end

