-- ==== Sys2Proof/Machine/Ops.lean ====
section
/-! DEFINITION. Machine/Ops.lean: the named operations over BUF and the registers, the acceptance and the completion of a
command (42_commands.md R150, R151), the error that takes the place of a trap (60_exceptions.md R205), the start and the
states of a transaction (42_commands.md R152 to R159), and reset (70_reset_and_hazards.md R230). -/

namespace Sys2Proof.Machine

/-- What a step or a meaning answers. -/
abbrev StepResult := Host.Outcome State Fault Refusal

/-! ## The frame buffer -/

/-- `BufWrite(i, v)`: a byte at or above MAX_FRAME is dropped (20_memory.md R52, R53). -/
def bufWrite (i : Nat) (v : Byte) (s : State) : State :=
  { s with buf := if i < s.cfg.maxFrame then s.buf.write i v else s.buf }

/-- `storeResponse(f)` (41_framing.md R140). -/
def storeResponse (f : Frame) (s : State) : State :=
  { s with
    buf := s.buf.writeFrom 0 (f.take s.cfg.maxFrame)
    rxCount := lengthWord (min f.length s.cfg.maxFrame) }

/-- `BufRead` as the host port sees it: a free draw while the framer is busy or where the cell has held no value, 0x00 at
or above MAX_FRAME (20_memory.md R51, log entries 4, 8, 9). -/
def hostBufRead (i : Word) (s : State) : Byte :=
  if s.fsm ≠ .idle then Config.freeBufByte s.draws i.toNat
  else if i.toNat < s.cfg.maxFrame then (s.buf.read i.toNat).getD (Config.freeBufByte s.draws i.toNat)
  else 0x00

/-! ## Acceptance, completion, error -/

/-- `complete(e, r, x)` (42_commands.md R150). -/
def complete (e : ErrCode) (r : Word) (x : Byte) (s : State) : State :=
  { s with
    done := true
    err := e
    result := if e = .ok then r else 0
    excCode := if e = .deviceException then x else 0
    fsm := .idle }

/-- `raise E(info)` is `complete(E, 0, info)` (00_scope.md R10): the framer's "trap entry" (60_exceptions.md R205). It
saves nothing, and there is no return from it (R206). -/
def raiseError (e : ErrCode) (info : Byte) (s : State) : State := complete e 0 info s

/-- What acceptance clears: DONE, ERR and EXC_CODE (42_commands.md R151), the only way out of an error besides reset
(60_exceptions.md R206). -/
def clearStatus (s : State) : State := { s with done := false, err := .ok, excCode := 0 }

/-- An event or an instruction that happens in one state of the automaton only (10_state.md R27, 42_commands.md R162):
elsewhere it has no step. A configuration that breaks 00_scope.md R6 is refused. -/
def inState (st : Fsm) (k : State → StepResult) (s : State) : StepResult :=
  if configOk s.cfg then
    if s.fsm = st then k s else .fault .noStep
  else .refused .badConfig

/-- `accept(w)` up to the case on the command (42_commands.md R151); `k` is what the command does. -/
def acceptCommand (k : State → StepResult) (s : State) : StepResult :=
  inState .idle (fun s => k (clearStatus s)) s

/-! ## Transactions -/

/-- `startTransaction(kind, fc, A, B)` (42_commands.md R152). -/
def startTransaction (kind : Kind) (fc : Byte) (a b : Word) (s : State) : State :=
  let q := requestOf kind s.addr fc a b
  if s.linkUp then
    { s with req := q, rxCount := 0, txbuf := encodeReq q, fsm := .gapPre }
  else raiseError .notConnected 0 { s with req := q, rxCount := 0 }

/-- GapElapsed in GAP_PRE (42_commands.md R155): the delay ends when tx_recent has fallen (10_state.md R38, log entry
10). -/
def gapPreElapsed (s : State) : State := { s with fsm := .flush, txRecent := false }

/-- FlushAck in FLUSH (42_commands.md R156). -/
def flushAcked (s : State) : State := { s with fsm := .send, txIdx := 0 }

/-- TxDone(o) in SEND (42_commands.md R157). -/
def txDone (o : TxOutcome) (s : State) : State :=
  let s := { s with txRecent := true }
  match o with
  | .ok => { s with fsm := .gapPost }
  | o => raiseError (txError o) 0 s

/-- GapElapsed in GAP_POST (42_commands.md R158): T_IFD has passed since the transmit (10_state.md R38, log entry 10). -/
def gapPostElapsed (s : State) : State := { s with fsm := .recv, rxacc := [], txRecent := false }

/-- RxDone(Frame(f)): store, validate, complete (42_commands.md R159). -/
def receiveFrame (f : Frame) (s : State) : State :=
  let v := validate s.cfg s.req f
  complete v.err v.result v.excCode (storeResponse f s)

/-- RxDone(o) in RECV (42_commands.md R159); an empty frame is a time-out (10_state.md R29). -/
def rxDone (o : RxOutcome) (s : State) : State :=
  match o with
  | .frame [] => raiseError .timedOut 0 s
  | .frame f => receiveFrame f s
  | .timedOut => raiseError .timedOut 0 s
  | .notConnected => raiseError .notConnected 0 s
  | .ioError => raiseError .ioError 0 s

/-! ## Reset -/

/-- `Reset` (70_reset_and_hazards.md R230): every piece of the framer's state takes its reset value; the configuration,
the environment's level of `link_up`, its coming inputs and the draw counter are not the framer's (log entry 18). -/
def applyReset (s : State) : State :=
  { State.resetWith s.cfg with linkUp := s.linkUp, inputs := s.inputs, draws := s.draws }

end Sys2Proof.Machine
end

