-- ==== Sys2Proof/Machine/AddrCommands.lean ====
section
/-! DEFINITION. Machine/AddrCommands.lean: SET_ADDR and GET_ADDR (42_commands.md R170, R171). -/

namespace Sys2Proof.Machine

/-- The effect of SET_ADDR (42_commands.md R170). -/
def setAddress (a : Word) (s : State) : State :=
  if addrInRange s.cfg a then complete .ok (zext16 (loByte a)) 0 { s with addr := loByte a }
  else raiseError .invalidArg 0 s

/-- SET_ADDR (42_commands.md R170); B is ignored. -/
def execSetAddr (newAddr _ignoredB : Word) (s : State) : StepResult :=
  acceptCommand (fun s => .next (setAddress newAddr s)) s

/-- GET_ADDR (42_commands.md R171); A and B are ignored. -/
def execGetAddr (_ignoredA _ignoredB : Word) (s : State) : StepResult :=
  acceptCommand (fun s => .next (complete .ok (zext16 s.addr) 0 s)) s

end Sys2Proof.Machine
end

