-- ==== Sys2Proof/Machine/CrcCommands.lean ====
section
/-! DEFINITION. Machine/CrcCommands.lean: CRC_APPEND and CRC_CHECK (40_crc.md R110, R111). -/

namespace Sys2Proof.Machine

/-- CRC_APPEND once the data `d` = BUF[0..n) has been read (40_crc.md R110). -/
def appendCrc (n : Nat) (d : Frame) (s : State) : State :=
  let c := crc16 d
  complete .ok (lengthWord (n + 2)) 0
    { bufWrite (n + 1) (loByte c) (bufWrite n (hiByte c) s) with crc := c }

/-- The effect of CRC_APPEND (40_crc.md R110): n + 2 does not wrap; a cell with no value is a fault
(70_reset_and_hazards.md R231). -/
def crcAppendEffect (n : Nat) (s : State) : StepResult :=
  if s.cfg.maxFrame < n + 2 then .next (raiseError .tooLarge 0 s)
  else
    match s.buf.readRange 0 n with
    | none => .fault (.unwrittenCell .crcAppend)
    | some d => .next (appendCrc n d s)

/-- CRC_CHECK once the frame `g` = BUF[0..n) has been read, n ≥ 2 (40_crc.md R111): CRC is written on a match and on a
mismatch. -/
def checkCrc (n : Nat) (g : Frame) (s : State) : State :=
  let s := { s with crc := crc16 (g.take (n - 2)) }
  if crcOk g then complete .ok (lengthWord (n - 2)) 0 s else raiseError .crcMismatch 0 s

/-- The effect of CRC_CHECK (40_crc.md R111): TOO_LARGE, then SHORT, then CRC_MISMATCH. -/
def crcCheckEffect (n : Nat) (s : State) : StepResult :=
  if s.cfg.maxFrame < n then .next (raiseError .tooLarge 0 s)
  else if n < 2 then .next (raiseError .short 0 s)
  else
    match s.buf.readRange 0 n with
    | none => .fault (.unwrittenCell .crcCheck)
    | some g => .next (checkCrc n g s)

/-- CRC_APPEND (40_crc.md R110); B is ignored. -/
def execCrcAppend (n _ignoredB : Word) (s : State) : StepResult :=
  acceptCommand (crcAppendEffect (lengthOf n)) s

/-- CRC_CHECK (40_crc.md R111); B is ignored. -/
def execCrcCheck (n _ignoredB : Word) (s : State) : StepResult :=
  acceptCommand (crcCheckEffect (lengthOf n)) s

end Sys2Proof.Machine
end

