-- ==== Sys2Proof/Machine/Frames.lean ====
section
/-! DEFINITION. Machine/Frames.lean: the wire frames as instructions (log entry 15). A request frame runs when the link
has taken all of it (42_commands.md R157); a response frame runs when the link delivers it (R159). -/

namespace Sys2Proof.Machine

/-- The link has taken the request `f`: TxDone(OK). The frame offered is TXBUF (42_commands.md R157), so another frame
has no step. -/
def transmitted (f : Frame) (s : State) : StepResult :=
  inState .send (fun s => if s.txbuf = f then .next (txDone .ok s) else .fault .noStep) s

/-- The link delivers the response `f`: RxDone(Frame(f)) (42_commands.md R159). -/
def received (f : Frame) (s : State) : StepResult :=
  inState .recv (fun s => .next (rxDone (.frame f) s)) s

/-- FRAME_READ_REQ: the read request has been transmitted (41_framing.md R120, 42_commands.md R157). -/
def execFrameReadReq (dev : Byte) (reg count : Word) (s : State) : StepResult :=
  transmitted (requestFrame dev s.cfg.fcRead reg count) s

/-- FRAME_WRITE_REQ: the write request has been transmitted (41_framing.md R120, 42_commands.md R157). -/
def execFrameWriteReq (dev : Byte) (reg value : Word) (s : State) : StepResult :=
  transmitted (requestFrame dev s.cfg.fcWrite reg value) s

/-- FRAME_READ_RESP: a normal read response is received (30_encoding.md R77, 41_framing.md R130, R131, R140). -/
def execFrameReadResp (dev : Byte) (hdrRest payload : Frame) (s : State) : StepResult :=
  received (readResponseFrame s.cfg dev hdrRest payload) s

/-- FRAME_WRITE_ECHO: a normal write response is received (30_encoding.md R78, 41_framing.md R130, R132, R140). -/
def execFrameWriteEcho (dev : Byte) (reg value : Word) (s : State) : StepResult :=
  received (requestFrame dev s.cfg.fcWrite reg value) s

/-- FRAME_EXCEPTION: an exception response is received (30_encoding.md R79, 41_framing.md R130, R133, R140). -/
def execFrameException (kind : Kind) (dev code : Byte) (rest : Frame) (s : State) : StepResult :=
  received (exceptionFrame s.cfg kind dev code rest) s

end Sys2Proof.Machine
end

