-- ==== Sys2Proof/Machine/IllegalCommands.lean ====
section
/-! DEFINITION. Machine/IllegalCommands.lean: the illegal command words (42_commands.md R180, 30_encoding.md R72, R73). -/

namespace Sys2Proof.Machine

/-- `complete(ILLEGAL_CMD, 0)` at acceptance, and no other effect (42_commands.md R180). -/
def illegalCommand (s : State) : StepResult :=
  acceptCommand (fun s => .next (raiseError .illegalCmd 0 s)) s

/-- ILLEGAL_OP0 (42_commands.md R180); no operand is read. -/
def execIllegalOp0 (_a _b : Word) (s : State) : StepResult := illegalCommand s

/-- ILLEGAL_OP7 (42_commands.md R180); no operand is read. -/
def execIllegalOp7 (_a _b : Word) (s : State) : StepResult := illegalCommand s

/-- ILLEGAL_OP8 (42_commands.md R180); no operand is read. -/
def execIllegalOp8 (_a _b : Word) (s : State) : StepResult := illegalCommand s

/-- ILLEGAL_OP9 (42_commands.md R180); no operand is read. -/
def execIllegalOp9 (_a _b : Word) (s : State) : StepResult := illegalCommand s

/-- ILLEGAL_OPA (42_commands.md R180); no operand is read. -/
def execIllegalOpA (_a _b : Word) (s : State) : StepResult := illegalCommand s

/-- ILLEGAL_OPB (42_commands.md R180); no operand is read. -/
def execIllegalOpB (_a _b : Word) (s : State) : StepResult := illegalCommand s

/-- ILLEGAL_OPC (42_commands.md R180); no operand is read. -/
def execIllegalOpC (_a _b : Word) (s : State) : StepResult := illegalCommand s

/-- ILLEGAL_OPD (42_commands.md R180); no operand is read. -/
def execIllegalOpD (_a _b : Word) (s : State) : StepResult := illegalCommand s

/-- ILLEGAL_OPE (42_commands.md R180); no operand is read. -/
def execIllegalOpE (_a _b : Word) (s : State) : StepResult := illegalCommand s

/-- ILLEGAL_OPF (42_commands.md R180); no operand is read. -/
def execIllegalOpF (_a _b : Word) (s : State) : StepResult := illegalCommand s

/-- ILLEGAL_RSV (30_encoding.md R73, 42_commands.md R180): illegal whatever op is. -/
def execIllegalRsv (_rsv _op : BitVec 4) (_a _b : Word) (s : State) : StepResult := illegalCommand s

end Sys2Proof.Machine
end

