-- ==== Sys2Proof/Machine/LinkCommands.lean ====
section
/-! DEFINITION. Machine/LinkCommands.lean: READ_REGS and WRITE_REG (42_commands.md R160, R161). Their instruction is the
acceptance; the events that follow (R155 to R159) carry the transaction on. -/

namespace Sys2Proof.Machine

/-- READ_REGS (42_commands.md R160): neither operand is range-checked (41_framing.md R122). -/
def execReadRegs (reg count : Word) (s : State) : StepResult :=
  acceptCommand (fun s => .next (startTransaction .read s.cfg.fcRead reg count s)) s

/-- WRITE_REG (42_commands.md R161): neither operand is range-checked (41_framing.md R122). -/
def execWriteReg (reg value : Word) (s : State) : StepResult :=
  acceptCommand (fun s => .next (startTransaction .write s.cfg.fcWrite reg value s)) s

end Sys2Proof.Machine
end

