-- ==== Sys2Proof/Machine/Dispatch.lean ====
section
/-! DEFINITION. Machine/Dispatch.lean: one arm per constructor of `Instr`. -/

namespace Sys2Proof.Machine

def exec (i : Instr) (s : State) : Host.Outcome State Fault Refusal :=
  match i with
  | .readRegs reg count => Sys2Proof.Machine.execReadRegs reg count s
  | .writeReg reg value => Sys2Proof.Machine.execWriteReg reg value s
  | .setAddr newAddr ignoredB => Sys2Proof.Machine.execSetAddr newAddr ignoredB s
  | .getAddr ignoredA ignoredB => Sys2Proof.Machine.execGetAddr ignoredA ignoredB s
  | .crcAppend n ignoredB => Sys2Proof.Machine.execCrcAppend n ignoredB s
  | .crcCheck n ignoredB => Sys2Proof.Machine.execCrcCheck n ignoredB s
  | .illegalOp0 a b => Sys2Proof.Machine.execIllegalOp0 a b s
  | .illegalOp7 a b => Sys2Proof.Machine.execIllegalOp7 a b s
  | .illegalOp8 a b => Sys2Proof.Machine.execIllegalOp8 a b s
  | .illegalOp9 a b => Sys2Proof.Machine.execIllegalOp9 a b s
  | .illegalOpA a b => Sys2Proof.Machine.execIllegalOpA a b s
  | .illegalOpB a b => Sys2Proof.Machine.execIllegalOpB a b s
  | .illegalOpC a b => Sys2Proof.Machine.execIllegalOpC a b s
  | .illegalOpD a b => Sys2Proof.Machine.execIllegalOpD a b s
  | .illegalOpE a b => Sys2Proof.Machine.execIllegalOpE a b s
  | .illegalOpF a b => Sys2Proof.Machine.execIllegalOpF a b s
  | .illegalRsv rsv op a b => Sys2Proof.Machine.execIllegalRsv rsv op a b s
  | .frameReadReq dev reg count => Sys2Proof.Machine.execFrameReadReq dev reg count s
  | .frameWriteReq dev reg value => Sys2Proof.Machine.execFrameWriteReq dev reg value s
  | .frameReadResp dev hdrRest payload => Sys2Proof.Machine.execFrameReadResp dev hdrRest payload s
  | .frameWriteEcho dev reg value => Sys2Proof.Machine.execFrameWriteEcho dev reg value s
  | .frameException kind dev code rest => Sys2Proof.Machine.execFrameException kind dev code rest s

end Sys2Proof.Machine
end

