-- ==== Sys2Proof/Machine/Events.lean ====
section
/-! DEFINITION. Machine/Events.lean: what one step does with the next input: the events of 10_state.md R27 and the
transition relation of 42_commands.md R162, and the byte-level ports of R24, R25, R28 and R29. -/

namespace Sys2Proof.Machine

/-! ## Events -/

/-- `Cmd(w)`: decode the command word and run it (42_commands.md R151). -/
def runCommand (w : CmdWord) (s : State) : StepResult := exec (decodeCommand w) s

/-- `HostBufWrite(i, v)` (20_memory.md R52, 42_commands.md R162): only in IDLE and below MAX_FRAME (log entry 22). -/
def hostBufWrite (i : Word) (v : Byte) (s : State) : StepResult :=
  inState .idle (fun s => if i.toNat < s.cfg.maxFrame then .next (bufWrite i.toNat v s) else .fault .noStep) s

/-- `GapElapsed` in GAP_PRE and GAP_POST (42_commands.md R155, R158). -/
def gapElapsed (s : State) : StepResult :=
  match s.fsm with
  | .gapPost => .next (gapPostElapsed s)
  | _ => inState .gapPre (fun s => .next (gapPreElapsed s)) s

/-- `FlushAck` in FLUSH (42_commands.md R156). -/
def flushAck (s : State) : StepResult := inState .flush (fun s => .next (flushAcked s)) s

/-- `TxDone(OK)` in SEND (42_commands.md R157): the request in TXBUF has been sent, so its instruction runs. A TXBUF
that holds no request frame, which no run reaches, is sent all the same. -/
def transmitDone (s : State) : StepResult :=
  match decode s.cfg (.request s.txbuf) with
  | .ok i => exec i s
  | .error _ => inState .send (fun s => .next (txDone .ok s)) s

/-- `RxDone(Frame(f))` in RECV (42_commands.md R159): a frame that is a row of the table runs as its instruction; any
other frame is stored and rejected by the same rule. An empty frame is a time-out (10_state.md R29). -/
def frameDone (f : Frame) (s : State) : StepResult :=
  match decode s.cfg (.response s.req.kind f) with
  | .ok i => exec i s
  | .error _ => inState .recv (fun s => .next (rxDone (.frame f) s)) s

/-- `TxDone(o)` (42_commands.md R157). -/
def txEvent (o : TxOutcome) (s : State) : StepResult :=
  match o with
  | .ok => transmitDone s
  | o => inState .send (fun s => .next (txDone o s)) s

/-- `RxDone(o)` (42_commands.md R159). -/
def rxEvent (o : RxOutcome) (s : State) : StepResult :=
  match o with
  | .frame f => frameDone f s
  | o => inState .recv (fun s => .next (rxDone o s)) s

/-- The transition an event fires (10_state.md R27, 42_commands.md R162). -/
def fireEvent (e : Event) (s : State) : StepResult :=
  match e with
  | .cmd w => runCommand w s
  | .hostBufWrite i v => hostBufWrite i v s
  | .gapElapsed => gapElapsed s
  | .flushAck => flushAck s
  | .txDone o => txEvent o s
  | .rxDone o => rxEvent o s
  | .reset => .next (applyReset s)

/-! ## The byte-level ports -/

/-- A clock step in IDLE: the host's buffer write takes effect first, an offered command is then accepted (20_memory.md
R52, 10_state.md R25); a write at or above MAX_FRAME is ignored. -/
def idleSample (p : PortSample) (s : State) : StepResult :=
  let s := if p.bufWe then bufWrite p.bufWaddr.toNat p.bufWdata s else s
  if p.cmdValid then runCommand p.cmdWord s else .next s

/-- A clock step in GAP_PRE: it ends at once when tx_recent is 0, otherwise when it falls (10_state.md R38). -/
def gapPreSample (s : State) : StepResult :=
  if s.txRecent then .next s else gapElapsed s

/-- A clock step in SEND (10_state.md R28): a nonzero tx_status ends it; a handshake moves on one byte, and the handshake
of byte 7 is TxDone(OK). On the step of a nonzero tx_status tx_idx stays, also when tx_ready is 1: DESIGN CHOICE, log
entry 23. -/
def sendSample (p : PortSample) (s : State) : StepResult :=
  if p.txStatus ≠ 0 then txEvent (txStatusOutcome p.txStatus) s
  else if p.txReady then
    let s := { s with txIdx := s.txIdx + 1 }
    if requestLen ≤ s.txIdx then txEvent .ok s else .next s
  else .next s

/-- A clock step in RECV (10_state.md R28, R29): a valid byte is appended first (log entry 12); then rx_eof or a nonzero
rx_status ends the collection (log entry 13). -/
def recvSample (p : PortSample) (s : State) : StepResult :=
  let s := { s with rxacc := if p.rxValid then s.rxacc ++ [p.rxData] else s.rxacc }
  if p.rxStatus = 0 then
    if p.rxEof then rxEvent (.frame s.rxacc) s else .next s
  else if p.rxEof && Config.eofBeforeStatus s.draws then rxEvent (.frame s.rxacc) s
  else rxEvent (rxStatusOutcome p.rxStatus s.rxacc) s

/-- What the sample's level of link_up and the inter-frame timer do before the automaton moves (10_state.md R24, R38). -/
def latchSample (p : PortSample) (s : State) : State :=
  { s with linkUp := p.linkUp, txRecent := s.txRecent && !p.ifdElapsed }

/-- One clock step of the ports. Reset wins over everything (60_exceptions.md R204, log entry 18); a command offered or a
buffer write strobed outside IDLE is not taken (10_state.md R25, 20_memory.md R52, 70_reset_and_hazards.md R240). -/
def portStep (p : PortSample) (s : State) : StepResult :=
  let s := latchSample p s
  if p.rst then .next (applyReset s)
  else
    match s.fsm with
    | .idle => idleSample p s
    | .gapPre => gapPreSample s
    | .flush => if p.flushAck then flushAck s else .next s
    | .send => sendSample p s
    | .gapPost => if p.ifdElapsed then gapElapsed s else .next s
    | .recv => recvSample p s

/-- The output signals of 10_state.md R24 and R25. -/
structure PortOutputs where
  cmdReady : Bool
  bufRdata : Byte
  status : Word
  done : Bool
  result : Word
  rxCount : Word
  crcOut : Word
  addrOut : Byte
  flushReq : Bool
  txValid : Bool
  txData : Byte
  rxEn : Bool
deriving DecidableEq, Repr

/-- The outputs while the sample `p` is applied in state `s` (10_state.md R24, R25, 20_memory.md R51,
70_reset_and_hazards.md R230); tx_data while no byte is offered is free (log entry 14). -/
def portOutputs (p : PortSample) (s : State) : PortOutputs where
  cmdReady := decide (s.fsm = .idle) && !p.rst
  bufRdata := hostBufRead p.bufRaddr s
  status := s.status
  done := s.done
  result := s.result
  rxCount := s.rxCount
  crcOut := s.crc
  addrOut := s.addr
  flushReq := decide (s.fsm = .flush) && !p.rst
  txValid := decide (s.fsm = .send) && !p.rst
  txData :=
    if decide (s.fsm = .send) && !p.rst then s.txbuf.getD s.txIdx (Config.freeTxData s.draws)
    else Config.freeTxData s.draws
  rxEn := decide (s.fsm = .recv) && !p.rst

/-! ## One step -/

/-- What one input does. -/
def inputStep (x : Input) (s : State) : StepResult :=
  match x with
  | .event up e => fireEvent e { s with linkUp := up }
  | .ports p => portStep p s

/-- The state in which the first input has been taken off the list. -/
def consume (rest : List Input) (s : State) : State := { s with inputs := rest, draws := s.draws + 1 }

/-- One step: the next input fires its transition; with no input there is no step (log entries 5 and 6); a configuration
that breaks 00_scope.md R6 is refused. -/
def runNext (s : State) : StepResult :=
  if configOk s.cfg then
    match s.inputs with
    | [] => .fault .noInput
    | x :: rest => inputStep x (consume rest s)
  else .refused .badConfig

/-- Deliver an instruction to the machine as its next input: a command word in IDLE; a request frame in TXBUF with its
transmission; a response frame in RECV (log entry 16). -/
def placeEncoded (e : Encoded) (s : State) : State :=
  match e with
  | .command w => { s with fsm := .idle, inputs := .event s.linkUp (.cmd w) :: s.inputs }
  | .request f => { s with fsm := .send, txbuf := f, inputs := .event s.linkUp (.txDone .ok) :: s.inputs }
  | .response kind f =>
    { s with
      fsm := .recv
      req := { s.req with kind := kind }
      inputs := .event s.linkUp (.rxDone (.frame f)) :: s.inputs }

end Sys2Proof.Machine
end

