-- ==== Sys2Proof/Machine/Step.lean ====
section
/-! DEFINITION. Machine/Step.lean: one step of the machine (00_scope.md R11), and the delivery of an instruction as its
next input. Both call Machine/Events.lean. -/

namespace Sys2Proof.Machine

/-- One step: the next input event fires its transition (00_scope.md R11, 10_state.md R27). -/
def step (s : State) : Host.Outcome State Fault Refusal := runNext s

/-- The state with the instruction of a table row delivered as its next input (log entries 5 and 16). -/
def State.withFetchWord (s : State) (nbits w : Nat) : State := placeEncoded (tableEncoded s.cfg nbits w) s

end Sys2Proof.Machine
end

