-- ==== Sys2Proof/Machine/Asm.lean ====
section
/-! DEFINITION. Machine/Asm.lean: the assembler of 30_encoding.md R85 and the test notation of R86. No step uses them
(log entry 21). -/

namespace Sys2Proof.Machine

/-- A line of assembler after its numbers have been read (30_encoding.md R85). -/
inductive AsmLine where
  | readRegs (reg count : Nat)
  | writeReg (reg value : Nat)
  | setAddr (addr : Nat)
  | getAddr
  | crcAppend (n : Nat)
  | crcCheck (n : Nat)
  | cmd (w : Nat)
deriving DecidableEq, Repr

/-- A number that must fit in 16 bits: the assembler refuses a larger one and does not truncate it (30_encoding.md
R85). -/
def asmNumber (n : Nat) : Option Word := if n < 2 ^ 16 then some (BitVec.ofNat 16 n) else none

/-- The command word of two operands (30_encoding.md R85, R70). -/
def asmWord (op : BitVec 4) (a b : Nat) : Option CmdWord :=
  match asmNumber a, asmNumber b with
  | some a, some b => some (encodeCommand 0 op a b)
  | _, _ => none

/-- The assembler: 0 in ignored operand fields; `.cmd` takes any 40-bit word (30_encoding.md R85). -/
def assemble : AsmLine → Option CmdWord
  | .readRegs reg count => asmWord 0x1 reg count
  | .writeReg reg value => asmWord 0x2 reg value
  | .setAddr addr => asmWord 0x3 addr 0
  | .getAddr => asmWord 0x4 0 0
  | .crcAppend n => asmWord 0x5 n 0
  | .crcCheck n => asmWord 0x6 n 0
  | .cmd w => if w < 2 ^ 40 then some (BitVec.ofNat 40 w) else none

/-! ## Reading a line of text -/

/-- The value of a digit, if it is one below `base`. -/
def digitValue (base : Nat) (ch : Char) : Option Nat :=
  let n := ch.toNat
  let d :=
    if 48 ≤ n ∧ n ≤ 57 then n - 48
    else if 65 ≤ n ∧ n ≤ 70 then n - 55
    else if 97 ≤ n ∧ n ≤ 102 then n - 87
    else base
  if d < base then some d else none

/-- The digits of a number after the value read so far. -/
def readDigits (base : Nat) : Nat → List Char → Option Nat
  | acc, [] => some acc
  | acc, ch :: cs =>
    match digitValue base ch with
    | some d => readDigits base (acc * base + d) cs
    | none => none

/-- A number: decimal, or hex with `0x` (30_encoding.md R85). -/
def readNumber : List Char → Option Nat
  | [] => none
  | ['0', 'x'] => none
  | '0' :: 'x' :: cs => readDigits 16 0 cs
  | cs => readDigits 10 0 cs

/-- The words of a line: what stands between blanks and before a comment, a comma being a word of its own. -/
def asmTokens (acc : List Char) : List Char → List (List Char)
  | [] => if acc = [] then [] else [acc.reverse]
  | ';' :: _ => if acc = [] then [] else [acc.reverse]
  | ' ' :: cs => if acc = [] then asmTokens [] cs else acc.reverse :: asmTokens [] cs
  | ',' :: cs => if acc = [] then [','] :: asmTokens [] cs else acc.reverse :: [','] :: asmTokens [] cs
  | ch :: cs => asmTokens (ch :: acc) cs

/-- A line from its words (30_encoding.md R85). -/
def asmLine (ts : List (List Char)) : Option AsmLine :=
  match ts with
  | [m] => if m = "GET_ADDR".toList then some .getAddr else none
  | [m, a] =>
    match readNumber a with
    | none => none
    | some a =>
      if m = "SET_ADDR".toList then some (.setAddr a)
      else if m = "CRC_APPEND".toList then some (.crcAppend a)
      else if m = "CRC_CHECK".toList then some (.crcCheck a)
      else if m = ".cmd".toList then some (.cmd a)
      else none
  | [m, a, [','], b] =>
    match readNumber a, readNumber b with
    | some a, some b =>
      if m = "READ_REGS".toList then some (.readRegs a b)
      else if m = "WRITE_REG".toList then some (.writeReg a b)
      else none
    | _, _ => none
  | _ => none

/-- The command word of a line of text. -/
def assembleText (line : List Char) : Option CmdWord :=
  match asmLine (asmTokens [] line) with
  | some l => assemble l
  | none => none

/-! ## The notation of test programs -/

/-- A line of a test program (30_encoding.md R86). -/
inductive TestLine where
  | cmd (w : CmdWord)
  | bufw (i : Nat) (bytes : Frame)
  | tx (o : TxOutcome)
  | rx (o : RxOutcome)
  | wait
deriving DecidableEq, Repr

/-- `BUFW`: a run of HostBufWrite events at i, i + 1, … (30_encoding.md R86). -/
def bufwEvents (i : Nat) : Frame → List Event
  | [] => []
  | v :: f => .hostBufWrite (BitVec.ofNat 16 i) v :: bufwEvents (i + 1) f

/-- The events a line stands for, in the state of the automaton in which it is written (30_encoding.md R86). -/
def testEvents (st : Fsm) : TestLine → List Event
  | .cmd w => [.cmd w]
  | .bufw i bytes => bufwEvents i bytes
  | .tx o => [.txDone o]
  | .rx o => [.rxDone o]
  | .wait =>
    match st with
    | .gapPre => [.gapElapsed, .flushAck]
    | .flush => [.flushAck]
    | .gapPost => [.gapElapsed]
    | _ => []

/-- A line's inputs at a level of link_up (`LINK up` and `LINK down` of 30_encoding.md R86 set the level). -/
def testInputs (up : Bool) (st : Fsm) (l : TestLine) : List Input := (testEvents st l).map (.event up)

end Sys2Proof.Machine
end

