-- ==== Sys2Proof/Safety.lean ====
section
/-! DEFINITION. Safety.lean: what the spec says holds of the framer in every state, and which events a state lists. -/

namespace Sys2Proof.Machine

/-- What every step keeps, and reset has: the facts the spec states about the framer's registers, for every
configuration and in every state of the automaton. -/
structure FramerInv (s : State) : Prop where
  /-- The configuration satisfies 00_scope.md R6. -/
  cfgOk : configOk s.cfg = true
  /-- BUF is in canonical form. -/
  bufCanonical : s.buf.wf
  /-- No cell at or above MAX_FRAME has a value (20_memory.md R53). -/
  bufBounded : ∀ cell ∈ s.buf, cell.1 < s.cfg.maxFrame
  /-- ADDR is in [ADDR_MIN, ADDR_MAX] (10_state.md R23). -/
  addrRange : s.cfg.addrMin ≤ s.addr.toNat ∧ s.addr.toNat ≤ s.cfg.addrMax
  /-- RX_COUNT is at most MAX_FRAME (10_state.md R32). -/
  rxCountRange : s.rxCount.toNat ≤ s.cfg.maxFrame
  /-- EXC_CODE is 0x00 unless ERR = DEVICE_EXCEPTION (10_state.md R30). -/
  excCodeZero : s.err ≠ .deviceException → s.excCode = 0
  /-- RESULT is 0 on any error (10_state.md R31). -/
  resultZero : s.err ≠ .ok → s.result = 0
  /-- An error is held only by a completed command (42_commands.md R150, R151). -/
  errDone : s.done = false → s.err = .ok
  /-- BUSY and DONE are never both 1 (95_test_vectors.md 2.10). -/
  busyNotDone : s.fsm ≠ .idle → s.done = false
  /-- RX_COUNT is 0 from acceptance until the response arrives (70_reset_and_hazards.md R241). -/
  busyRxCount : s.fsm ≠ .idle → s.rxCount = 0
  /-- REQ.addr equals ADDR throughout a transaction (10_state.md R36). -/
  busyReqAddr : s.fsm ≠ .idle → s.req.addr = s.addr
  /-- REQ.fc is the function code of REQ.kind throughout a transaction (41_framing.md R120). -/
  busyReqFc : s.fsm ≠ .idle → s.req.fc = functionCode s.cfg s.req.kind
  /-- TXBUF holds the request of REQ throughout a transaction (42_commands.md R152). -/
  busyTxbuf : s.fsm ≠ .idle → s.txbuf = encodeReq s.req
  /-- tx_idx is 0 to 8 (10_state.md R37). -/
  txIdxRange : s.txIdx ≤ 8
  /-- In SEND a byte is still to be sent (10_state.md R28). -/
  sendTxIdx : s.fsm = .send → s.txIdx < 8
  /-- GAP_PRE is left only when tx_recent has fallen, and GAP_POST only after T_IFD (10_state.md R38). -/
  txRecentFallen : s.fsm = .flush ∨ s.fsm = .send ∨ s.fsm = .recv → s.txRecent = false
  /-- GAP_POST starts at the end of a transmit (10_state.md R38, 42_commands.md R157). -/
  txRecentSet : s.fsm = .gapPost → s.txRecent = true

/-- The table of 10_state.md R27: in which states an event occurs. -/
def eventListed (c : Config) (st : Fsm) : Event → Bool
  | .cmd _ => decide (st = .idle)
  | .hostBufWrite i _ => decide (st = .idle) && decide (i.toNat < c.maxFrame)
  | .gapElapsed => decide (st = .gapPre) || decide (st = .gapPost)
  | .flushAck => decide (st = .flush)
  | .txDone _ => decide (st = .send)
  | .rxDone _ => decide (st = .recv)
  | .reset => true

end Sys2Proof.Machine
end

