-- ==== Sys2Proof/Certificates/Slice0/Obligations.lean ====
section
/-! DEFINITION. Certificates/Slice0/Obligations.lean: the statements for the provers, each about the machine as the rules
of spec/ give it. Where one rests on a choice of the model, its docstring names the log entry. -/

open Sys2Proof Sys2Proof.Machine

/-! ## The CRC -/

/-- R100: the per-byte step is eight conditional shifts of the register XOR the byte, with 0xA001; the CRC starts from
0xFFFF. -/
def Obligations.CrcStepIsEightShifts : Prop :=
  ∀ (c : Word) (b : Byte),
    crcStep c b =
      (fun x : Word => if x.getLsbD 0 then (x >>> 1) ^^^ 0xA001#16 else x >>> 1)^[8] (c ^^^ b.setWidth 16) ∧
    crc16 [] = 0xFFFF#16 ∧ crc16 [b] = crcStep 0xFFFF#16 b

/-- R101: the CRC is the fold of the step over the bytes from 0xFFFF, with no final step; the check value. -/
def Obligations.CrcIsTheFoldFromTheSeed : Prop :=
  crc16 [] = 0xFFFF#16 ∧
  (∀ (f : Frame) (b : Byte), crc16 (f ++ [b]) = crcStep (crc16 f) b) ∧
  crc16 [0x31, 0x32, 0x33, 0x34, 0x35, 0x36, 0x37, 0x38, 0x39] = 0x4B37#16

/-- R104 law 1: appending the CRC and verifying succeeds, and the bytes before the CRC are the payload. -/
def Obligations.CrcRoundTrip : Prop :=
  ∀ f : Frame, crcOk (withCrc f) = true ∧ (withCrc f).length = f.length + 2 ∧ (withCrc f).take f.length = f

/-- R104 law 2: a frame with its CRC in which exactly one byte has been changed fails the check. -/
def Obligations.CrcSingleByteCorruptionDetected : Prop :=
  ∀ (f : Frame) (i : Nat) (v : Byte),
    i < f.length + 2 → v ≠ (withCrc f).getD i 0 → crcOk ((withCrc f).set i v) = false

/-- R102, R103: the check accepts exactly the byte strings that are a string with its CRC appended. -/
def Obligations.CrcCheckAcceptsExactlyAppended : Prop :=
  ∀ g : Frame, crcOk g = true ↔ ∃ f : Frame, g = withCrc f

/-- From R103 and R130 (R105 is the spec's own inference): a frame with its CRC low byte first fails the check unless the two bytes are equal, and a response of a good
length is then rejected with CRC_MISMATCH, whatever else it holds. -/
def Obligations.LowByteFirstCrcRejected : Prop :=
  ∀ (c : Config) (q : Request) (f : Frame), hiByte (crc16 f) ≠ loByte (crc16 f) →
    crcOk (f ++ [loByte (crc16 f), hiByte (crc16 f)]) = false ∧
    (5 ≤ f.length + 2 → f.length + 2 ≤ responseCap c q.kind →
      (validate c q (f ++ [loByte (crc16 f), hiByte (crc16 f)])).err = .crcMismatch)

/-! ## Encoder, validator, decoder -/

/-- From R120 and R103 (R121 is the spec's own inference): a request is 8 bytes, passes the CRC check, and its first six bytes determine its four fields. -/
def Obligations.RequestEncoderLosesNoBit : Prop :=
  ∀ q : Request,
    (encodeReq q).length = 8 ∧ crcOk (encodeReq q) = true ∧
    ∀ q' : Request, (encodeReq q').take 6 = (encodeReq q).take 6 →
      q'.addr = q.addr ∧ q'.fc = q.fc ∧ q'.reg = q.reg ∧ q'.val = q.val

/-- R130: the checks in their order; each clause assumes that the checks before it pass. -/
def Obligations.ValidatorOrder : Prop :=
  ∀ (c : Config) (q : Request) (f : Frame),
    ((if q.kind = .read then c.maxFrame else 8) < f.length → validate c q f = Verdict.mk .tooLarge 0 0) ∧
    (f.length ≤ (if q.kind = .read then c.maxFrame else 8) →
      (f.length < 5 → validate c q f = Verdict.mk .short 0 0) ∧
      (5 ≤ f.length →
        (crcOk f = false → validate c q f = Verdict.mk .crcMismatch 0 0) ∧
        (crcOk f = true →
          (f.getD 0 0 ≠ q.addr → validate c q f = Verdict.mk .addrMismatch 0 0) ∧
          (f.getD 0 0 = q.addr →
            (f.getD 1 0 = q.fc ||| c.excFlag → validate c q f = Verdict.mk .deviceException 0 (f.getD 2 0)) ∧
            (f.getD 1 0 ≠ q.fc ||| c.excFlag →
              (f.getD 1 0 ≠ q.fc → validate c q f = Verdict.mk .badOpcode 0 0) ∧
              (f.getD 1 0 = q.fc →
                (q.kind = .write →
                  (f.length ≠ 8 → validate c q f = Verdict.mk .short 0 0) ∧
                  (f.length = 8 →
                    ((f.drop 2).take 4 ≠ [hiByte q.reg, loByte q.reg, hiByte q.val, loByte q.val] →
                      validate c q f = Verdict.mk .echoMismatch 0 0) ∧
                    ((f.drop 2).take 4 = [hiByte q.reg, loByte q.reg, hiByte q.val, loByte q.val] →
                      validate c q f = Verdict.mk .ok q.val 0))) ∧
                (q.kind = .read →
                  (f.length < c.readHdrLen + 2 → validate c q f = Verdict.mk .short 0 0) ∧
                  (c.readHdrLen + 2 ≤ f.length →
                    validate c q f = Verdict.mk .ok (BitVec.ofNat 16 (f.length - 2 - c.readHdrLen)) 0))))))))

/-- R132: a write succeeds exactly when the response is the request itself, and its result is the value. -/
def Obligations.WriteSucceedsExactlyOnTheEcho : Prop :=
  ∀ (c : Config) (q : Request) (f : Frame),
    configOk c = true → q.kind = .write → q.fc = c.fcWrite →
    ((validate c q f).err = .ok ↔ f = encodeReq q) ∧ (validate c q (encodeReq q)).result = q.val

/-- R131, R130: a read succeeds exactly on a frame of the device with the read function code, a good CRC and a length
between READ_HDR_LEN + 2 and MAX_FRAME; its result is the payload length. -/
def Obligations.ReadSucceedsExactlyOnReadFrames : Prop :=
  ∀ (c : Config) (q : Request) (f : Frame),
    configOk c = true → q.kind = .read → q.fc = c.fcRead →
    ((validate c q f).err = .ok ↔
      c.readHdrLen + 2 ≤ f.length ∧ f.length ≤ c.maxFrame ∧ crcOk f = true ∧ f.getD 0 0 = q.addr ∧
        f.getD 1 0 = c.fcRead) ∧
    ((validate c q f).err = .ok → (validate c q f).result.toNat = f.length - 2 - c.readHdrLen)

/-- R133: a device exception is recognised exactly when the length, CRC and address checks pass and the function code is
the exception variant; the exception code is byte 2, which may be 0x00. -/
def Obligations.DeviceExceptionRecognised : Prop :=
  ∀ (c : Config) (q : Request) (f : Frame),
    ((validate c q f).err = .deviceException ↔
      5 ≤ f.length ∧ f.length ≤ (if q.kind = .write then 8 else c.maxFrame) ∧ crcOk f = true ∧
        f.getD 0 0 = q.addr ∧ f.getD 1 0 = q.fc ||| c.excFlag) ∧
    ((validate c q f).err = .deviceException → validate c q f = Verdict.mk .deviceException 0 (f.getD 2 0))

/-- R134: the verdict does not depend on the header's remaining bytes (the byte count), on the payload's relation to
REQ.val, or on bytes 3 to n - 3 of an exception response. -/
def Obligations.ValidatorDoesNotCheck : Prop :=
  ∀ (c : Config) (q : Request), configOk c = true → q.fc = functionCode c q.kind →
    (∀ hdrRest payload : Frame, q.kind = .read → hdrRest.length + 2 = c.readHdrLen →
      c.readHdrLen + payload.length + 2 ≤ c.maxFrame →
      validate c q (withCrc (q.addr :: c.fcRead :: (hdrRest ++ payload))) =
        Verdict.mk .ok (BitVec.ofNat 16 payload.length) 0) ∧
    (∀ (code : Byte) (rest : Frame), rest.length + 5 ≤ responseCap c q.kind →
      validate c q (withCrc (q.addr :: (q.fc ||| c.excFlag) :: code :: rest)) =
        Verdict.mk .deviceException 0 code)

/-- R80, R130: for a response from the addressed device, the decoder refuses a frame exactly when one of the checks 1, 2,
3, 6, 7w, 7r fails, under the name of that check; what it decodes is accepted, a device exception or an echo mismatch. -/
def Obligations.DecoderAgreesWithValidator : Prop :=
  ∀ (c : Config) (q : Request) (f : Frame),
    configOk c = true → q.fc = functionCode c q.kind → f.getD 0 0 = q.addr →
    match decode c (.response q.kind f) with
    | .error .responseTooLarge => (validate c q f).err = .tooLarge
    | .error .responseShort => (validate c q f).err = .short
    | .error .badCrc => (validate c q f).err = .crcMismatch
    | .error .responseCode => (validate c q f).err = .badOpcode
    | .error .requestLength => False
    | .error .requestCode => False
    | .ok (.frameException _ _ code _) => validate c q f = Verdict.mk .deviceException 0 code
    | .ok (.frameReadResp _ _ payload) => validate c q f = Verdict.mk .ok (BitVec.ofNat 16 payload.length) 0
    | .ok (.frameWriteEcho _ reg value) =>
      (validate c q f).err = if reg = q.reg ∧ value = q.val then .ok else .echoMismatch
    | .ok _ => False

/-- R70 to R79: decoding the encoding of a well-formed instruction gives it back, with every operand. -/
def Obligations.DecodeOfEncode : Prop :=
  ∀ (c : Config) (i : Instr), configOk c = true → i.wellFormed c = true → decode c (encode c i) = .ok i

/-- R70 to R80: what decodes to an instruction is its encoding, and the instruction is well formed: no two words and no
two frames have one reading. -/
def Obligations.EncodeOfDecode : Prop :=
  ∀ (c : Config) (e : Encoded) (i : Instr), configOk c = true → decode c e = .ok i →
    encode c i = e ∧ i.wellFormed c = true

/-- R87: the example words decode to the commands they stand for. -/
def Obligations.ExampleWordsDecode : Prop :=
  decodeCommand 0x0002030001 = .readRegs 0x0300 2 ∧
  decodeCommand 0x0001000001 = .readRegs 0x0000 1 ∧
  decodeCommand 0x0001010E02 = .writeReg 0x010E 1 ∧
  decodeCommand 0x3039011002 = .writeReg 0x0110 12345 ∧
  decodeCommand 0x0000000503 = .setAddr 5 0 ∧
  decodeCommand 0x0000000003 = .setAddr 0 0 ∧
  decodeCommand 0x000000F803 = .setAddr 248 0 ∧
  decodeCommand 0x0000000004 = .getAddr 0 0 ∧
  decodeCommand 0x0000000605 = .crcAppend 6 0 ∧
  decodeCommand 0x0000000806 = .crcCheck 8 0 ∧
  decodeCommand 0x0000000007 = .illegalOp7 0 0 ∧
  decodeCommand 0x0000000011 = .illegalRsv 1 1 0 0

/-- R85: the assembler refuses a number over 16 bits, puts 0 in ignored fields, and what it assembles decodes to the
command of the line; `.cmd` gives any 40-bit word, legal or not, and refuses a larger number (the assembler is log entry
21's). -/
def Obligations.AssembledWordsDecode : Prop :=
  (∀ (a b : Nat), a < 2 ^ 16 → b < 2 ^ 16 →
    (∃ w, assemble (.readRegs a b) = some w ∧ decodeCommand w = .readRegs (BitVec.ofNat 16 a) (BitVec.ofNat 16 b)) ∧
    (∃ w, assemble (.writeReg a b) = some w ∧ decodeCommand w = .writeReg (BitVec.ofNat 16 a) (BitVec.ofNat 16 b)) ∧
    (∃ w, assemble (.setAddr a) = some w ∧ decodeCommand w = .setAddr (BitVec.ofNat 16 a) 0) ∧
    (∃ w, assemble .getAddr = some w ∧ decodeCommand w = .getAddr 0 0) ∧
    (∃ w, assemble (.crcAppend a) = some w ∧ decodeCommand w = .crcAppend (BitVec.ofNat 16 a) 0) ∧
    (∃ w, assemble (.crcCheck a) = some w ∧ decodeCommand w = .crcCheck (BitVec.ofNat 16 a) 0)) ∧
  (∀ (a b : Nat), 2 ^ 16 ≤ a →
    assemble (.readRegs a b) = none ∧ assemble (.readRegs b a) = none ∧ assemble (.writeReg a b) = none ∧
    assemble (.writeReg b a) = none ∧ assemble (.setAddr a) = none ∧ assemble (.crcAppend a) = none ∧
    assemble (.crcCheck a) = none) ∧
  (∀ w : CmdWord, assemble (.cmd w.toNat) = some w) ∧
  (∀ n : Nat, 2 ^ 40 ≤ n → assemble (.cmd n) = none)

/-! ## Commands: what each leaves, and that everything else is unchanged -/

/-- R152: a link command latches the request and clears RX_COUNT; with the link up it puts the request in TXBUF and goes
to GAP_PRE, with the link down it completes with NOT_CONNECTED and sends nothing. Acceptance clears DONE, ERR and
EXC_CODE and leaves RESULT (R151). -/
def Obligations.LinkCommandsStartTransaction : Prop :=
  ∀ (s : State) (a b : Word), configOk s.cfg = true → s.fsm = .idle →
    (s.linkUp = true →
      exec (.readRegs a b) s = .next { s with
        done := false, err := .ok, excCode := 0, rxCount := 0, fsm := .gapPre
        req := Request.mk .read s.addr s.cfg.fcRead a b
        txbuf := withCrc [s.addr, s.cfg.fcRead, hiByte a, loByte a, hiByte b, loByte b] } ∧
      exec (.writeReg a b) s = .next { s with
        done := false, err := .ok, excCode := 0, rxCount := 0, fsm := .gapPre
        req := Request.mk .write s.addr s.cfg.fcWrite a b
        txbuf := withCrc [s.addr, s.cfg.fcWrite, hiByte a, loByte a, hiByte b, loByte b] }) ∧
    (s.linkUp = false →
      exec (.readRegs a b) s = .next { s with
        done := true, err := .notConnected, excCode := 0, result := 0, rxCount := 0
        req := Request.mk .read s.addr s.cfg.fcRead a b } ∧
      exec (.writeReg a b) s = .next { s with
        done := true, err := .notConnected, excCode := 0, result := 0, rxCount := 0
        req := Request.mk .write s.addr s.cfg.fcWrite a b })

/-- R170: SET_ADDR compares all 16 bits of A with the range; in range it sets ADDR and answers it, out of range it fails
with INVALID_ARG and keeps ADDR; B does not matter, and nothing else changes. -/
def Obligations.SetAddrSetsOrRejects : Prop :=
  ∀ (s : State) (a b : Word), configOk s.cfg = true → s.fsm = .idle →
    decodeCommand (encodeCommand 0x0 0x3 a b) = .setAddr a b ∧
    (s.cfg.addrMin ≤ a.toNat ∧ a.toNat ≤ s.cfg.addrMax →
      exec (.setAddr a b) s =
        .next { s with done := true, err := .ok, excCode := 0, result := a, addr := BitVec.ofNat 8 a.toNat }) ∧
    (a.toNat < s.cfg.addrMin ∨ s.cfg.addrMax < a.toNat →
      exec (.setAddr a b) s = .next { s with done := true, err := .invalidArg, excCode := 0, result := 0 })

/-- R171: GET_ADDR answers ADDR, whatever its operands, and changes nothing else. -/
def Obligations.GetAddrReadsAddr : Prop :=
  ∀ (s : State) (a b : Word), configOk s.cfg = true → s.fsm = .idle →
    decodeCommand (encodeCommand 0x0 0x4 a b) = .getAddr a b ∧
    exec (.getAddr a b) s =
      .next { s with done := true, err := .ok, excCode := 0, result := BitVec.ofNat 16 s.addr.toNat }

/-- R110: CRC_APPEND writes the CRC of BUF[0..n) high byte first at n and n + 1; n + 2 does not wrap; over a cell with no
value it is a fault. -/
def Obligations.CrcAppendEffect : Prop :=
  ∀ (s : State) (n b : Word), configOk s.cfg = true → s.fsm = .idle →
    decodeCommand (encodeCommand 0x0 0x5 n b) = .crcAppend n b ∧
    (s.cfg.maxFrame < n.toNat + 2 →
      exec (.crcAppend n b) s = .next { s with done := true, err := .tooLarge, excCode := 0, result := 0 }) ∧
    (∀ d : Frame, n.toNat + 2 ≤ s.cfg.maxFrame → d.length = n.toNat →
      (∀ j, j < n.toNat → s.buf.read j = some (d.getD j 0)) →
      exec (.crcAppend n b) s = .next { s with
        done := true, err := .ok, excCode := 0, result := BitVec.ofNat 16 (n.toNat + 2), crc := crc16 d
        buf := (s.buf.write n.toNat (hiByte (crc16 d))).write (n.toNat + 1) (loByte (crc16 d)) }) ∧
    (n.toNat + 2 ≤ s.cfg.maxFrame → (∃ j, j < n.toNat ∧ s.buf.read j = none) →
      exec (.crcAppend n b) s = .fault (.unwrittenCell .crcAppend))

/-- R110, R53: after a successful CRC_APPEND the two CRC bytes read back from BUF, high byte first, and every other cell
of BUF reads as before. -/
def Obligations.CrcAppendStoresOnlyTheCrcBytes : Prop :=
  ∀ (s t : State) (n b : Word), exec (.crcAppend n b) s = .next t → t.err = .ok →
    t.buf.read n.toNat = some (hiByte t.crc) ∧ t.buf.read (n.toNat + 1) = some (loByte t.crc) ∧
    ∀ a : Nat, a ≠ n.toNat → a ≠ n.toNat + 1 → t.buf.read a = s.buf.read a

/-- R111: CRC_CHECK: TOO_LARGE, then SHORT, then the comparison; CRC is written on a match and on a mismatch, BUF never;
over a cell with no value it is a fault. -/
def Obligations.CrcCheckEffect : Prop :=
  ∀ (s : State) (n b : Word), configOk s.cfg = true → s.fsm = .idle →
    decodeCommand (encodeCommand 0x0 0x6 n b) = .crcCheck n b ∧
    (s.cfg.maxFrame < n.toNat →
      exec (.crcCheck n b) s = .next { s with done := true, err := .tooLarge, excCode := 0, result := 0 }) ∧
    (n.toNat < 2 →
      exec (.crcCheck n b) s = .next { s with done := true, err := .short, excCode := 0, result := 0 }) ∧
    (∀ (d : Frame) (h l : Byte), n.toNat ≤ s.cfg.maxFrame → d.length + 2 = n.toNat →
      (∀ j, j < n.toNat → s.buf.read j = some ((d ++ [h, l]).getD j 0)) →
      exec (.crcCheck n b) s = .next
        (if h = hiByte (crc16 d) ∧ l = loByte (crc16 d) then
          { s with done := true, err := .ok, excCode := 0, result := BitVec.ofNat 16 (n.toNat - 2), crc := crc16 d }
        else { s with done := true, err := .crcMismatch, excCode := 0, result := 0, crc := crc16 d })) ∧
    (n.toNat ≤ s.cfg.maxFrame → 2 ≤ n.toNat → (∃ j, j < n.toNat ∧ s.buf.read j = none) →
      exec (.crcCheck n b) s = .fault (.unwrittenCell .crcCheck))

/-- R111, R104 law 1: CRC_APPEND k and then CRC_CHECK k + 2 answers OK with RESULT = k and changes nothing else. -/
def Obligations.AppendThenCheckSucceeds : Prop :=
  ∀ (s t : State) (k b b' : Word), exec (.crcAppend k b) s = .next t → t.err = .ok →
    exec (.crcCheck (k + 2) b') t = .next { t with result := k }

/-- R111, R104 law 2: changing any one of the k + 2 bytes between CRC_APPEND k and CRC_CHECK k + 2 gives CRC_MISMATCH
and leaves BUF as it is. -/
def Obligations.CorruptionAfterAppendDetected : Prop :=
  ∀ (s t : State) (k b b' : Word) (i : Nat) (v : Byte), exec (.crcAppend k b) s = .next t → t.err = .ok →
    i < k.toNat + 2 → t.buf.read i ≠ some v →
    ∃ u, exec (.crcCheck (k + 2) b') { t with buf := t.buf.write i v } = .next u ∧
      u.err = .crcMismatch ∧ u.result = 0 ∧ u.buf = t.buf.write i v ∧ u.addr = t.addr ∧ u.rxCount = t.rxCount

/-- R180, R73: every illegal command word completes with ILLEGAL_CMD and has no other effect, and the words decoded so
are exactly those with rsv ≠ 0, op = 0 or op ≥ 7. -/
def Obligations.IllegalWordsComplete : Prop :=
  (∀ (s : State) (rsv op : BitVec 4) (a b : Word) (i : Instr), configOk s.cfg = true → s.fsm = .idle →
    i ∈ [Instr.illegalOp0 a b, .illegalOp7 a b, .illegalOp8 a b, .illegalOp9 a b, .illegalOpA a b, .illegalOpB a b,
      .illegalOpC a b, .illegalOpD a b, .illegalOpE a b, .illegalOpF a b, .illegalRsv rsv op a b] →
    exec i s = .next { s with done := true, err := .illegalCmd, excCode := 0, result := 0 }) ∧
  (∀ (s : State) (w : CmdWord), configOk s.cfg = true → s.fsm = .idle →
    (cmdRsv w ≠ 0 ∨ cmdOp w = 0 ∨ 7 ≤ (cmdOp w).toNat ↔
      exec (decodeCommand w) s = .next { s with done := true, err := .illegalCmd, excCode := 0, result := 0 }))

/-! ## Frames -/

/-- R157, R120: a request frame that stands in TXBUF runs in SEND: it has been transmitted, and the framer goes to
GAP_POST; nothing else changes (log entry 15: the frame as an instruction). -/
def Obligations.RequestFramesAreTransmitted : Prop :=
  ∀ (s : State) (dev : Byte) (reg val : Word), configOk s.cfg = true → s.fsm = .send →
    (s.txbuf = withCrc [dev, s.cfg.fcRead, hiByte reg, loByte reg, hiByte val, loByte val] →
      exec (.frameReadReq dev reg val) s = .next { s with fsm := .gapPost, txRecent := true }) ∧
    (s.txbuf = withCrc [dev, s.cfg.fcWrite, hiByte reg, loByte reg, hiByte val, loByte val] →
      exec (.frameWriteReq dev reg val) s = .next { s with fsm := .gapPost, txRecent := true })

/-- R131, R140, R77: the read response of the addressed device completes READ_REGS with OK and the payload length; the
frame stands in BUF[0..n) with its payload from READ_HDR_LEN on, and the rest of BUF is as before
(log entry 15: the frame as an instruction). -/
def Obligations.ReadResponseCompletesRead : Prop :=
  ∀ (s : State) (hdrRest payload : Frame), configOk s.cfg = true → s.fsm = .recv →
    s.req.kind = .read → s.req.fc = s.cfg.fcRead →
    hdrRest.length + 2 = s.cfg.readHdrLen → s.cfg.readHdrLen + payload.length + 2 ≤ s.cfg.maxFrame →
    ∃ t, exec (.frameReadResp s.req.addr hdrRest payload) s = .next t ∧
      t = { s with
        fsm := .idle, done := true, err := .ok, excCode := 0, result := BitVec.ofNat 16 payload.length
        rxCount := BitVec.ofNat 16 (s.cfg.readHdrLen + payload.length + 2), buf := t.buf } ∧
      (∀ j, j < s.cfg.readHdrLen + payload.length + 2 → t.buf.read j =
        some ((withCrc (s.req.addr :: s.cfg.fcRead :: (hdrRest ++ payload))).getD j 0)) ∧
      (∀ j, j < payload.length → t.buf.read (s.cfg.readHdrLen + j) = some (payload.getD j 0)) ∧
      (∀ j, s.cfg.readHdrLen + payload.length + 2 ≤ j → t.buf.read j = s.buf.read j)

/-- R132, R130, R140: a write response of the addressed device completes WRITE_REG: with OK and the value if it echoes
register and value, with ECHO_MISMATCH if not; its 8 bytes stand in BUF and the rest of BUF is as before (log
entry 15: the frame as an instruction). -/
def Obligations.WriteEchoCompletesWrite : Prop :=
  ∀ (s : State) (reg val : Word), configOk s.cfg = true → s.fsm = .recv →
    s.req.kind = .write → s.req.fc = s.cfg.fcWrite →
    ∃ t, exec (.frameWriteEcho s.req.addr reg val) s = .next t ∧
      t = { s with
        fsm := .idle, done := true, excCode := 0, rxCount := 8, buf := t.buf
        err := if reg = s.req.reg ∧ val = s.req.val then .ok else .echoMismatch
        result := if reg = s.req.reg ∧ val = s.req.val then val else 0 } ∧
      (∀ j, j < 8 → t.buf.read j =
        some ((withCrc [s.req.addr, s.cfg.fcWrite, hiByte reg, loByte reg, hiByte val, loByte val]).getD j 0)) ∧
      (∀ j, 8 ≤ j → t.buf.read j = s.buf.read j)

/-- R133, R140: an exception response of the addressed device completes either transaction with DEVICE_EXCEPTION and the
code in EXC_CODE; its bytes stand in BUF and the rest of BUF is as before (log entry 15: the frame as an
instruction). -/
def Obligations.ExceptionResponseCompletes : Prop :=
  ∀ (s : State) (code : Byte) (rest : Frame), configOk s.cfg = true → s.fsm = .recv →
    s.req.fc = functionCode s.cfg s.req.kind → rest.length + 5 ≤ responseCap s.cfg s.req.kind →
    ∃ t, exec (.frameException s.req.kind s.req.addr code rest) s = .next t ∧
      t = { s with
        fsm := .idle, done := true, err := .deviceException, excCode := code, result := 0
        rxCount := BitVec.ofNat 16 (rest.length + 5), buf := t.buf } ∧
      (∀ j, j < rest.length + 5 → t.buf.read j =
        some ((withCrc (s.req.addr :: (s.req.fc ||| s.cfg.excFlag) :: code :: rest)).getD j 0)) ∧
      (∀ j, rest.length + 5 ≤ j → t.buf.read j = s.buf.read j)

/-! ## Steps -/

/-- R151, R70 to R73: a step whose next input is a command word runs the decoded instruction, on the state in which the
input has been taken and link_up has its level. -/
def Obligations.StepRunsDecodedCommand : Prop :=
  ∀ (s : State) (up : Bool) (w : CmdWord) (rest : List Input) (i : Instr), configOk s.cfg = true →
    s.inputs = .event up (.cmd w) :: rest → decode s.cfg (.command w) = .ok i →
    step s = exec i { s with linkUp := up, inputs := rest, draws := s.draws + 1 }

/-- R157, R159: a step whose next input ends the transmission of a request frame, or delivers a response frame, runs
that frame's instruction (log entry 15). -/
def Obligations.StepRunsDecodedFrames : Prop :=
  ∀ (s : State) (up : Bool) (rest : List Input) (i : Instr), configOk s.cfg = true →
    (s.inputs = .event up (.txDone .ok) :: rest → decode s.cfg (.request s.txbuf) = .ok i →
      step s = exec i { s with linkUp := up, inputs := rest, draws := s.draws + 1 }) ∧
    (∀ f : Frame, s.inputs = .event up (.rxDone (.frame f)) :: rest →
      decode s.cfg (.response s.req.kind f) = .ok i →
      step s = exec i { s with linkUp := up, inputs := rest, draws := s.draws + 1 })

/-- R155, R156, R158: GAP_PRE goes to FLUSH, FLUSH to SEND with tx_idx = 0, GAP_POST to RECV with nothing collected; that
the elapsed delay leaves tx_recent at 0 is the model's reading (log entry 10). -/
def Obligations.WaitStatesMoveOn : Prop :=
  ∀ (s : State) (up : Bool) (rest : List Input), configOk s.cfg = true →
    (s.fsm = .gapPre → s.inputs = .event up .gapElapsed :: rest →
      step s = .next { s with
        linkUp := up, inputs := rest, draws := s.draws + 1, fsm := .flush, txRecent := false }) ∧
    (s.fsm = .flush → s.inputs = .event up .flushAck :: rest →
      step s = .next { s with linkUp := up, inputs := rest, draws := s.draws + 1, fsm := .send, txIdx := 0 }) ∧
    (s.fsm = .gapPost → s.inputs = .event up .gapElapsed :: rest →
      step s = .next { s with
        linkUp := up, inputs := rest, draws := s.draws + 1, fsm := .recv, rxacc := [], txRecent := false })

/-- R157: the end of a transmit sets tx_recent; a good one goes to GAP_POST, a failed one completes the command with the
link's error; there is no retry. -/
def Obligations.TxDoneEndsTransmit : Prop :=
  ∀ (s : State) (up : Bool) (rest : List Input), configOk s.cfg = true → s.fsm = .send →
    (s.inputs = .event up (.txDone .ok) :: rest →
      step s = .next { s with
        linkUp := up, inputs := rest, draws := s.draws + 1, txRecent := true, fsm := .gapPost }) ∧
    (∀ (o : TxOutcome) (e : ErrCode),
      (o, e) ∈ [(TxOutcome.notConnected, ErrCode.notConnected), (.timedOut, .timedOut), (.ioError, .ioError)] →
      s.inputs = .event up (.txDone o) :: rest →
      step s = .next { s with
        linkUp := up, inputs := rest, draws := s.draws + 1, txRecent := true, fsm := .idle
        done := true, err := e, excCode := 0, result := 0 })

/-- R159: a received frame is stored, then validated, and the verdict completes the command; a receive that fails
completes it with the link's error, and an empty frame counts as a time-out (R29). -/
def Obligations.RxDoneCompletes : Prop :=
  ∀ (s : State) (up : Bool) (rest : List Input), configOk s.cfg = true → s.fsm = .recv →
    (∀ f : Frame, f ≠ [] → s.inputs = .event up (.rxDone (.frame f)) :: rest →
      ∃ t, step s = .next t ∧ t = { s with
        linkUp := up, inputs := rest, draws := s.draws + 1, fsm := .idle, done := true
        buf := t.buf
        rxCount := BitVec.ofNat 16 (min f.length s.cfg.maxFrame)
        err := (validate s.cfg s.req f).err
        result := if (validate s.cfg s.req f).err = .ok then (validate s.cfg s.req f).result else 0
        excCode := if (validate s.cfg s.req f).err = .deviceException then (validate s.cfg s.req f).excCode else 0 }) ∧
    (∀ (o : RxOutcome) (e : ErrCode),
      (o, e) ∈ [(RxOutcome.timedOut, ErrCode.timedOut), (.frame [], .timedOut), (.notConnected, .notConnected),
        (.ioError, .ioError)] →
      s.inputs = .event up (.rxDone o) :: rest →
      step s = .next { s with
        linkUp := up, inputs := rest, draws := s.draws + 1, fsm := .idle
        done := true, err := e, excCode := 0, result := 0 })

/-- R140: the step that receives a frame stores its first MAX_FRAME bytes at BUF[0..), leaves the rest of BUF, and
RX_COUNT is the number stored, whatever the verdict; a frame longer than MAX_FRAME completes with TOO_LARGE. -/
def Obligations.ReceivedFrameIsStored : Prop :=
  ∀ (s : State) (up : Bool) (rest : List Input) (f : Frame), configOk s.cfg = true → s.fsm = .recv → f ≠ [] →
    s.inputs = .event up (.rxDone (.frame f)) :: rest →
    ∃ t, step s = .next t ∧ t.rxCount.toNat = min f.length s.cfg.maxFrame ∧
      (s.cfg.maxFrame < f.length → t.err = .tooLarge) ∧
      ∀ j, t.buf.read j = if j < min f.length s.cfg.maxFrame then some (f.getD j 0) else s.buf.read j

/-- R27, R162: an event has no step exactly where the table does not list it (log entries 6 and 22). -/
def Obligations.EventHasStepExactlyWhereListed : Prop :=
  ∀ (s : State) (up : Bool) (e : Event) (rest : List Input), configOk s.cfg = true →
    s.inputs = .event up e :: rest →
    (eventListed s.cfg s.fsm e = false ↔ step s = .fault .noStep)

/-- R163, R251: from GAP_PRE the five events end the transaction; a failed send ends it after three. -/
def Obligations.TransactionEndsWithinFiveSteps : Prop :=
  ∀ (s : State) (u1 u2 u3 u4 u5 : Bool) (rest : List Input), configOk s.cfg = true → s.fsm = .gapPre →
    (∀ o : RxOutcome,
      s.inputs = .event u1 .gapElapsed :: .event u2 .flushAck :: .event u3 (.txDone .ok) :: .event u4 .gapElapsed ::
        .event u5 (.rxDone o) :: rest →
      ∃ t, Host.Core.run Sys2Proof.core 5 s = .next t ∧ t.fsm = .idle ∧ t.done = true ∧ t.inputs = rest) ∧
    (∀ o : TxOutcome, o ≠ .ok →
      s.inputs = .event u1 .gapElapsed :: .event u2 .flushAck :: .event u3 (.txDone o) :: rest →
      ∃ t, Host.Core.run Sys2Proof.core 3 s = .next t ∧ t.fsm = .idle ∧ t.done = true ∧ t.err = txError o ∧
        t.inputs = rest)

/-- R160, R131, R152, R155 to R159: a whole READ_REGS with the link up and a read response of the device: six steps, then
OK, the payload length in RESULT, the response length in RX_COUNT, the payload in BUF from READ_HDR_LEN on. -/
def Obligations.ReadTransactionReturnsPayload : Prop :=
  ∀ (s : State) (reg count : Word) (hdrRest payload : Frame) (u2 u3 u4 u5 u6 : Bool) (rest : List Input),
    configOk s.cfg = true → s.fsm = .idle →
    hdrRest.length + 2 = s.cfg.readHdrLen → s.cfg.readHdrLen + payload.length + 2 ≤ s.cfg.maxFrame →
    s.inputs = .event true (.cmd (encodeCommand 0 1 reg count)) :: .event u2 .gapElapsed :: .event u3 .flushAck ::
      .event u4 (.txDone .ok) :: .event u5 .gapElapsed ::
      .event u6 (.rxDone (.frame (withCrc (s.addr :: s.cfg.fcRead :: (hdrRest ++ payload))))) :: rest →
    ∃ t, Host.Core.run Sys2Proof.core 6 s = .next t ∧ t.fsm = .idle ∧ t.done = true ∧ t.err = .ok ∧ t.excCode = 0 ∧
      t.result.toNat = payload.length ∧ t.rxCount.toNat = s.cfg.readHdrLen + payload.length + 2 ∧
      t.addr = s.addr ∧ t.crc = s.crc ∧ t.inputs = rest ∧
      (∀ j, j < payload.length → t.buf.read (s.cfg.readHdrLen + j) = some (payload.getD j 0)) ∧
      (∀ j, s.cfg.readHdrLen + payload.length + 2 ≤ j → t.buf.read j = s.buf.read j)

/-- R161, R132: a whole WRITE_REG with the link up: six steps, and it ends in OK with RESULT = value exactly when the
response is the request echoed byte for byte. -/
def Obligations.WriteTransactionNeedsTheEcho : Prop :=
  ∀ (s : State) (reg value : Word) (f : Frame) (u2 u3 u4 u5 u6 : Bool) (rest : List Input),
    configOk s.cfg = true → s.fsm = .idle → f ≠ [] →
    s.inputs = .event true (.cmd (encodeCommand 0 2 reg value)) :: .event u2 .gapElapsed :: .event u3 .flushAck ::
      .event u4 (.txDone .ok) :: .event u5 .gapElapsed :: .event u6 (.rxDone (.frame f)) :: rest →
    ∃ t, Host.Core.run Sys2Proof.core 6 s = .next t ∧ t.fsm = .idle ∧ t.done = true ∧ t.inputs = rest ∧
      t.addr = s.addr ∧ t.crc = s.crc ∧
      (t.err = .ok ↔
        f = withCrc [s.addr, s.cfg.fcWrite, hiByte reg, loByte reg, hiByte value, loByte value]) ∧
      t.result = if t.err = .ok then value else 0

/-! ## Whole-machine rules -/

/-- R202, R205: a command that fails leaves ADDR; CRC changes only by CRC_APPEND on OK and CRC_CHECK on OK or
CRC_MISMATCH; BUF changes only by a received frame and by CRC_APPEND on OK. -/
def Obligations.FailedCommandsWriteNothingElse : Prop :=
  ∀ (i : Instr) (s t : State), exec i s = .next t →
    (t.err ≠ .ok → t.addr = s.addr) ∧
    (t.crc ≠ s.crc →
      (∃ n b, i = .crcAppend n b ∧ t.err = .ok) ∨
      (∃ n b, i = .crcCheck n b ∧ (t.err = .ok ∨ t.err = .crcMismatch))) ∧
    (t.buf ≠ s.buf → s.fsm = .recv ∨ ∃ n b, i = .crcAppend n b ∧ t.err = .ok)

/-- R23, R32, R36: only SET_ADDR changes ADDR, to an operand in range; RX_COUNT is changed only by the acceptance of a
link command and by a received frame; REQ and TXBUF only by the acceptance of a link command. -/
def Obligations.RegistersHaveTheirWriters : Prop :=
  ∀ (i : Instr) (s t : State), exec i s = .next t →
    (t.addr ≠ s.addr → ∃ a b, i = .setAddr a b ∧ s.cfg.addrMin ≤ a.toNat ∧ a.toNat ≤ s.cfg.addrMax ∧
      t.addr = BitVec.ofNat 8 a.toNat) ∧
    (t.rxCount ≠ s.rxCount → s.fsm = .recv ∨ ∃ a b, i = .readRegs a b ∨ i = .writeReg a b) ∧
    (t.req ≠ s.req ∨ t.txbuf ≠ s.txbuf → ∃ a b, i = .readRegs a b ∨ i = .writeReg a b)

/-- R61, R150: the results of a command stay until the next command or reset: no buffer write and no idle clock step
changes STATUS, RESULT, RX_COUNT, CRC or ADDR. -/
def Obligations.ResultsStayUntilTheNextCommand : Prop :=
  ∀ (s t : State) (x : Input) (rest : List Input), s.fsm = .idle → s.inputs = x :: rest →
    (∀ up w, x ≠ .event up (.cmd w)) → (∀ up, x ≠ .event up .reset) →
    (∀ p, x = .ports p → p.rst = false ∧ p.cmdValid = false) → step s = .next t →
    t.status = s.status ∧ t.result = s.result ∧ t.rxCount = s.rxCount ∧ t.crc = s.crc ∧ t.addr = s.addr ∧ t.fsm = .idle

/-- R240, R242, R64: while the framer is busy, what the host drives on its command and buffer ports has no effect. -/
def Obligations.BusyFramerIgnoresTheHost : Prop :=
  ∀ (s : State) (p : PortSample) (cmdValid : Bool) (cmdWord : CmdWord) (bufWe : Bool) (bufWaddr : Word)
    (bufWdata : Byte) (bufRaddr : Word), s.fsm ≠ .idle →
    portStep { p with
      cmdValid := cmdValid, cmdWord := cmdWord, bufWe := bufWe, bufWaddr := bufWaddr, bufWdata := bufWdata
      bufRaddr := bufRaddr } s = portStep p s

/-- R41, R6: the reset state of every configuration that satisfies R6 has the invariant. (The second clause is about the
default configuration, log entry 1. Both read only reset values the spec states: TXBUF and REQ, log entry 3, are looked at
by no clause while the framer is idle.) -/
def Obligations.ResetStateHasTheInvariant : Prop :=
  (∀ c : Config, configOk c = true → FramerInv (State.resetWith c)) ∧ FramerInv State.reset

/-- R23, R30 to R32, R36, R38, R53, R150, R152: every step keeps the invariant, whatever the input (its
clauses on tx_recent rest on log entry 10). -/
def Obligations.StepKeepsTheInvariant : Prop :=
  ∀ s t : State, FramerInv s → step s = .next t → FramerInv t

/-- R230, R41, R231: reset, as an event or on the rst input, in any state: the stated reset values, BUF without values,
no completion; on the rst input no output asks the link or the host for anything. -/
def Obligations.ResetRestoresResetValues : Prop :=
  ∀ (s : State) (x : Input) (rest : List Input), configOk s.cfg = true → s.inputs = x :: rest →
    ((∃ up, x = .event up .reset) ∨ ∃ p, x = .ports p ∧ p.rst = true) →
    (∃ t, step s = .next t ∧ t.fsm = .idle ∧ t.addr = BitVec.ofNat 8 s.cfg.addrReset ∧ t.done = false ∧ t.err = .ok ∧
      t.excCode = 0 ∧ t.result = 0 ∧ t.rxCount = 0 ∧ t.crc = 0 ∧ t.txIdx = 0 ∧ t.rxacc = [] ∧ t.txRecent = false ∧
      t.cfg = s.cfg ∧ t.status = 0 ∧ ∀ j, t.buf.read j = none) ∧
    (∀ p, x = .ports p → p.rst = true →
      (portOutputs p s).cmdReady = false ∧ (portOutputs p s).flushReq = false ∧ (portOutputs p s).txValid = false ∧
        (portOutputs p s).rxEn = false)

/-- R30, R200: STATUS is EXC_CODE x 256 + ERR x 16 + DONE x 2 + BUSY with bits 3:2 zero, ERR below 13, and BUSY and DONE
never both 1 in a state with the invariant. -/
def Obligations.StatusWordLayout : Prop :=
  ∀ s : State,
    s.status.toNat = s.excCode.toNat * 256 + (errCode s.err).toNat * 16 + (if s.done then 2 else 0) +
      (if s.fsm = .idle then 0 else 1) ∧
    s.status &&& 0x000C = 0 ∧ (errCode s.err).toNat < 13 ∧
    (∀ e, errCode e = errCode s.err → e = s.err) ∧
    (FramerInv s → s.status &&& 0x0003 ≠ 0x0003)

/-- R6: a configuration is accepted exactly when it satisfies the constraints, and one that breaks a constraint is
refused by every instruction and by every step. -/
def Obligations.BadConfigurationRefused : Prop :=
  (∀ c : Config, configOk c = true ↔
    0 ≤ c.addrMin ∧ c.addrMin ≤ c.addrReset ∧ c.addrReset ≤ c.addrMax ∧ c.addrMax ≤ 255 ∧
    8 ≤ c.maxFrame ∧ c.maxFrame ≤ 65535 ∧
    c.fcRead ≠ c.fcWrite ∧ c.fcRead &&& c.excFlag = 0 ∧ c.fcWrite &&& c.excFlag = 0 ∧ c.excFlag ≠ 0 ∧
    3 ≤ c.readHdrLen ∧ c.readHdrLen ≤ c.maxFrame - 2) ∧
  (∀ s : State, configOk s.cfg = false →
    step s = .refused .badConfig ∧ ∀ i : Instr, exec i s = .refused .badConfig)

/-- R40: the configuration is fixed for the life of the machine: no instruction and no step changes it
(it stands in State by log entry 1). -/
def Obligations.ConfigurationIsFixed : Prop :=
  (∀ (i : Instr) (s t : State), exec i s = .next t → t.cfg = s.cfg) ∧
  (∀ s t : State, step s = .next t → t.cfg = s.cfg)

/-! ## The ports -/

/-- R51: a host read in IDLE gives the value a cell holds, and 0x00 at or above MAX_FRAME. (A cell with no value, and a
read while busy, are free draws: nothing is stated.) -/
def Obligations.HostReadsBufInIdle : Prop :=
  ∀ (s : State) (p : PortSample), s.fsm = .idle →
    (∀ v, p.bufRaddr.toNat < s.cfg.maxFrame → s.buf.read p.bufRaddr.toNat = some v →
      (portOutputs p s).bufRdata = v) ∧
    (s.cfg.maxFrame ≤ p.bufRaddr.toNat → (portOutputs p s).bufRdata = 0x00)

/-- R52: a host write in IDLE below MAX_FRAME sets that one cell and changes nothing else of the framer, as an event and
as a strobe; a strobe at or above MAX_FRAME, or while busy, is ignored; a command accepted on the same clock step sees
the written byte; a command offered with no strobe, or with one at or above MAX_FRAME, runs on BUF as it stands (R25). That a
clock step also takes the level of link_up and the end of the delay is log entries 7 and 19. -/
def Obligations.HostWritesBufInIdle : Prop :=
  (∀ (s : State) (up : Bool) (i : Word) (v : Byte) (rest : List Input), configOk s.cfg = true → s.fsm = .idle →
    i.toNat < s.cfg.maxFrame → s.inputs = .event up (.hostBufWrite i v) :: rest →
    ∃ t, step s = .next t ∧
      t = { s with linkUp := up, inputs := rest, draws := s.draws + 1, buf := t.buf } ∧
      ∀ j, t.buf.read j = if j = i.toNat then some v else s.buf.read j) ∧
  (∀ (s : State) (p : PortSample), s.fsm = .idle → p.rst = false → p.bufWe = true → p.cmdValid = false →
    portStep p s = .next { s with
      linkUp := p.linkUp, txRecent := s.txRecent && !p.ifdElapsed
      buf := if p.bufWaddr.toNat < s.cfg.maxFrame then s.buf.write p.bufWaddr.toNat p.bufWdata else s.buf }) ∧
  (∀ (s : State) (p : PortSample), s.fsm = .idle → p.rst = false → p.bufWe = true → p.cmdValid = true →
    p.bufWaddr.toNat < s.cfg.maxFrame →
    portStep p s = exec (decodeCommand p.cmdWord) { s with
      linkUp := p.linkUp, txRecent := s.txRecent && !p.ifdElapsed
      buf := s.buf.write p.bufWaddr.toNat p.bufWdata }) ∧
  (∀ (s : State) (p : PortSample), s.fsm = .idle → p.rst = false → p.cmdValid = true →
    p.bufWe = false ∨ s.cfg.maxFrame ≤ p.bufWaddr.toNat →
    portStep p s = exec (decodeCommand p.cmdWord) { s with
      linkUp := p.linkUp, txRecent := s.txRecent && !p.ifdElapsed }) ∧
  (∀ (s : State) (p : PortSample), s.fsm ≠ .idle → portStep { p with bufWe := true } s = portStep { p with bufWe := false } s)

/-- R155, R158, R38: at the ports, GAP_PRE is left at once when tx_recent is 0 and otherwise when the delay runs out;
GAP_POST always waits for it (log entries 10 and 19). -/
def Obligations.InterFrameDelayAtThePorts : Prop :=
  ∀ (s : State) (p : PortSample), configOk s.cfg = true → p.rst = false →
    (s.fsm = .gapPre → s.txRecent = true → p.ifdElapsed = false → portStep p s = .next { s with linkUp := p.linkUp }) ∧
    (s.fsm = .gapPre → s.txRecent = false ∨ p.ifdElapsed = true →
      portStep p s = .next { s with linkUp := p.linkUp, txRecent := false, fsm := .flush }) ∧
    (s.fsm = .gapPost → p.ifdElapsed = false → portStep p s = .next { s with linkUp := p.linkUp }) ∧
    (s.fsm = .gapPost → p.ifdElapsed = true →
      portStep p s = .next { s with linkUp := p.linkUp, txRecent := false, fsm := .recv, rxacc := [] })

/-- R63, R24, R28: in SEND the framer offers byte tx_idx of the request of REQ. -/
def Obligations.RequestBytesOfferedInOrder : Prop :=
  ∀ (s : State) (p : PortSample), FramerInv s → s.fsm = .send → p.rst = false →
    (portOutputs p s).txValid = true ∧ s.txIdx < 8 ∧ (portOutputs p s).txData = (encodeReq s.req).getD s.txIdx 0

/-- R28: a run of clock steps in SEND without an error, of which eight take a byte and the last is one of them, does what
the event TxDone(OK) does, with tx_idx = 8 (log entry 11). -/
def Obligations.SendHandshakesRefineTxDone : Prop :=
  ∀ (s : State) (ps : List PortSample) (p : PortSample) (rest : List Input), configOk s.cfg = true →
    s.fsm = .send → s.txIdx = 0 → s.txRecent = false →
    (∀ x ∈ ps ++ [p], x.rst = false ∧ x.txStatus = 0) → p.txReady = true →
    ((ps ++ [p]).filter (fun x => x.txReady)).length = 8 → s.inputs = (ps ++ [p]).map Input.ports ++ rest →
    Host.Core.run Sys2Proof.core (ps.length + 1) s = .next { s with
      fsm := .gapPost, txRecent := true, txIdx := 8, linkUp := p.linkUp, inputs := rest
      draws := s.draws + ps.length + 1 }

/-- R28: a run of clock steps in RECV without an error, ended by rx_eof, does what the event RxDone does with the frame
of the bytes that were valid, in order; what has been collected stays in rxacc (log entry 11). -/
def Obligations.ReceivedBytesRefineRxDone : Prop :=
  ∀ (s : State) (ps : List PortSample) (p : PortSample) (rest : List Input) (f : Frame), configOk s.cfg = true →
    s.fsm = .recv → s.rxacc = [] → s.txRecent = false →
    (∀ x ∈ ps ++ [p], x.rst = false ∧ x.rxStatus = 0) → (∀ x ∈ ps, x.rxEof = false) → p.rxEof = true →
    f = ((ps ++ [p]).filter (fun x => x.rxValid)).map (fun x => x.rxData) →
    s.inputs = (ps ++ [p]).map Input.ports ++ rest →
    ∃ t, step { s with inputs := .event p.linkUp (.rxDone (.frame f)) :: rest } = .next t ∧
      Host.Core.run Sys2Proof.core (ps.length + 1) s = .next { t with rxacc := f, draws := s.draws + ps.length + 1 }

/-- R29: a nonzero rx_status in RECV: 01 and 11 complete with NOT_CONNECTED and IO_ERROR; 10 completes with TIMED_OUT when
nothing has been collected and is the end of the frame when something has. (A valid byte or rx_eof on the same step: log
entries 12 and 13.) -/
def Obligations.ReceiveStatusOutcomes : Prop :=
  ∀ (s : State) (p : PortSample), configOk s.cfg = true → s.fsm = .recv → p.rst = false → p.rxValid = false →
    p.rxEof = false →
    (∀ (v : BitVec 2) (e : ErrCode),
      (v, e) ∈ [(0b01#2, ErrCode.notConnected), (0b11#2, .ioError)] ∨ (v = 0b10#2 ∧ s.rxacc = [] ∧ e = .timedOut) →
      p.rxStatus = v →
      portStep p s = .next { s with
        linkUp := p.linkUp, txRecent := s.txRecent && !p.ifdElapsed, fsm := .idle
        done := true, err := e, excCode := 0, result := 0 }) ∧
    (p.rxStatus = 0b10#2 → s.rxacc ≠ [] →
      portStep p s = .next (receiveFrame s.rxacc
        { s with linkUp := p.linkUp, txRecent := s.txRecent && !p.ifdElapsed })) ∧
    (∀ up rest, s.inputs = .event up (.rxDone (.frame [])) :: rest →
      step s = step { s with inputs := .event up (.rxDone .timedOut) :: rest })

/-- R24, R28, R157: a nonzero tx_status on a clock step of SEND ends the transmit: 01, 10 and 11 complete with NOT_CONNECTED,
TIMED_OUT and IO_ERROR and set tx_recent, whether or not the link takes a byte on that step. (That tx_idx does not move on
it is log entry 23.) -/
def Obligations.SendStatusOutcomes : Prop :=
  ∀ (s : State) (p : PortSample) (v : BitVec 2) (e : ErrCode), configOk s.cfg = true → s.fsm = .send → p.rst = false →
    (v, e) ∈ [(0b01#2, ErrCode.notConnected), (0b10#2, .timedOut), (0b11#2, .ioError)] → p.txStatus = v →
    portStep p s = .next { s with
      linkUp := p.linkUp, txRecent := true, fsm := .idle, done := true, err := e, excCode := 0, result := 0 }

/-- R24, R156: at the ports, FLUSH waits while flush_ack is 0 and goes to SEND with tx_idx = 0 when it is 1. (That a clock
step also takes the level of link_up and the end of the delay is log entries 7 and 19.) -/
def Obligations.FlushHandshakeAtThePorts : Prop :=
  ∀ (s : State) (p : PortSample), configOk s.cfg = true → s.fsm = .flush → p.rst = false →
    (p.flushAck = false →
      portStep p s = .next { s with linkUp := p.linkUp, txRecent := s.txRecent && !p.ifdElapsed }) ∧
    (p.flushAck = true →
      portStep p s = .next { s with
        linkUp := p.linkUp, txRecent := s.txRecent && !p.ifdElapsed, fsm := .send, txIdx := 0 })

/-- R24, R25: outside reset cmd_ready, flush_req, tx_valid and rx_en are 1 exactly in IDLE, FLUSH, SEND and RECV; always
the register outputs are the registers. -/
def Obligations.OutputsFollowTheState : Prop :=
  ∀ (s : State) (p : PortSample),
    (p.rst = false →
      ((portOutputs p s).cmdReady = true ↔ s.fsm = .idle) ∧ ((portOutputs p s).flushReq = true ↔ s.fsm = .flush) ∧
      ((portOutputs p s).txValid = true ↔ s.fsm = .send) ∧ ((portOutputs p s).rxEn = true ↔ s.fsm = .recv)) ∧
    (portOutputs p s).status = s.status ∧ (portOutputs p s).done = s.done ∧ (portOutputs p s).result = s.result ∧
    (portOutputs p s).rxCount = s.rxCount ∧ (portOutputs p s).crcOut = s.crc ∧ (portOutputs p s).addrOut = s.addr
end

