-- ==== Sys2Proof/Laws/State.lean ====
section
/-! SUPPORT. Laws/State.lean: for each update of the state, what each field reads after it. -/

namespace Sys2Proof.Laws

open Machine

/-! ## complete -/

@[simp] theorem complete_fsm (e : ErrCode) (r : Word) (x : Byte) (s : State) : (complete e r x s).fsm = .idle := rfl
@[simp] theorem complete_addr (e : ErrCode) (r : Word) (x : Byte) (s : State) : (complete e r x s).addr = s.addr := rfl
@[simp] theorem complete_done (e : ErrCode) (r : Word) (x : Byte) (s : State) : (complete e r x s).done = true := rfl
@[simp] theorem complete_err (e : ErrCode) (r : Word) (x : Byte) (s : State) : (complete e r x s).err = e := rfl
@[simp] theorem complete_excCode (e : ErrCode) (r : Word) (x : Byte) (s : State) : (complete e r x s).excCode = if e = .deviceException then x else 0 := rfl
@[simp] theorem complete_result (e : ErrCode) (r : Word) (x : Byte) (s : State) : (complete e r x s).result = if e = .ok then r else 0 := rfl
@[simp] theorem complete_rxCount (e : ErrCode) (r : Word) (x : Byte) (s : State) : (complete e r x s).rxCount = s.rxCount := rfl
@[simp] theorem complete_crc (e : ErrCode) (r : Word) (x : Byte) (s : State) : (complete e r x s).crc = s.crc := rfl
@[simp] theorem complete_buf (e : ErrCode) (r : Word) (x : Byte) (s : State) : (complete e r x s).buf = s.buf := rfl
@[simp] theorem complete_txbuf (e : ErrCode) (r : Word) (x : Byte) (s : State) : (complete e r x s).txbuf = s.txbuf := rfl
@[simp] theorem complete_req (e : ErrCode) (r : Word) (x : Byte) (s : State) : (complete e r x s).req = s.req := rfl
@[simp] theorem complete_txIdx (e : ErrCode) (r : Word) (x : Byte) (s : State) : (complete e r x s).txIdx = s.txIdx := rfl
@[simp] theorem complete_rxacc (e : ErrCode) (r : Word) (x : Byte) (s : State) : (complete e r x s).rxacc = s.rxacc := rfl
@[simp] theorem complete_txRecent (e : ErrCode) (r : Word) (x : Byte) (s : State) : (complete e r x s).txRecent = s.txRecent := rfl
@[simp] theorem complete_cfg (e : ErrCode) (r : Word) (x : Byte) (s : State) : (complete e r x s).cfg = s.cfg := rfl
@[simp] theorem complete_linkUp (e : ErrCode) (r : Word) (x : Byte) (s : State) : (complete e r x s).linkUp = s.linkUp := rfl
@[simp] theorem complete_inputs (e : ErrCode) (r : Word) (x : Byte) (s : State) : (complete e r x s).inputs = s.inputs := rfl
@[simp] theorem complete_draws (e : ErrCode) (r : Word) (x : Byte) (s : State) : (complete e r x s).draws = s.draws := rfl

/-! ## raiseError -/

@[simp] theorem raiseError_fsm (e : ErrCode) (x : Byte) (s : State) : (raiseError e x s).fsm = .idle := rfl
@[simp] theorem raiseError_addr (e : ErrCode) (x : Byte) (s : State) : (raiseError e x s).addr = s.addr := rfl
@[simp] theorem raiseError_done (e : ErrCode) (x : Byte) (s : State) : (raiseError e x s).done = true := rfl
@[simp] theorem raiseError_err (e : ErrCode) (x : Byte) (s : State) : (raiseError e x s).err = e := rfl
@[simp] theorem raiseError_excCode (e : ErrCode) (x : Byte) (s : State) : (raiseError e x s).excCode = if e = .deviceException then x else 0 := rfl
@[simp] theorem raiseError_result (e : ErrCode) (x : Byte) (s : State) : (raiseError e x s).result = 0 := ite_self 0
@[simp] theorem raiseError_rxCount (e : ErrCode) (x : Byte) (s : State) : (raiseError e x s).rxCount = s.rxCount := rfl
@[simp] theorem raiseError_crc (e : ErrCode) (x : Byte) (s : State) : (raiseError e x s).crc = s.crc := rfl
@[simp] theorem raiseError_buf (e : ErrCode) (x : Byte) (s : State) : (raiseError e x s).buf = s.buf := rfl
@[simp] theorem raiseError_txbuf (e : ErrCode) (x : Byte) (s : State) : (raiseError e x s).txbuf = s.txbuf := rfl
@[simp] theorem raiseError_req (e : ErrCode) (x : Byte) (s : State) : (raiseError e x s).req = s.req := rfl
@[simp] theorem raiseError_txIdx (e : ErrCode) (x : Byte) (s : State) : (raiseError e x s).txIdx = s.txIdx := rfl
@[simp] theorem raiseError_rxacc (e : ErrCode) (x : Byte) (s : State) : (raiseError e x s).rxacc = s.rxacc := rfl
@[simp] theorem raiseError_txRecent (e : ErrCode) (x : Byte) (s : State) : (raiseError e x s).txRecent = s.txRecent := rfl
@[simp] theorem raiseError_cfg (e : ErrCode) (x : Byte) (s : State) : (raiseError e x s).cfg = s.cfg := rfl
@[simp] theorem raiseError_linkUp (e : ErrCode) (x : Byte) (s : State) : (raiseError e x s).linkUp = s.linkUp := rfl
@[simp] theorem raiseError_inputs (e : ErrCode) (x : Byte) (s : State) : (raiseError e x s).inputs = s.inputs := rfl
@[simp] theorem raiseError_draws (e : ErrCode) (x : Byte) (s : State) : (raiseError e x s).draws = s.draws := rfl

/-! ## clearStatus -/

@[simp] theorem clearStatus_fsm (s : State) : (clearStatus s).fsm = s.fsm := rfl
@[simp] theorem clearStatus_addr (s : State) : (clearStatus s).addr = s.addr := rfl
@[simp] theorem clearStatus_done (s : State) : (clearStatus s).done = false := rfl
@[simp] theorem clearStatus_err (s : State) : (clearStatus s).err = .ok := rfl
@[simp] theorem clearStatus_excCode (s : State) : (clearStatus s).excCode = 0 := rfl
@[simp] theorem clearStatus_result (s : State) : (clearStatus s).result = s.result := rfl
@[simp] theorem clearStatus_rxCount (s : State) : (clearStatus s).rxCount = s.rxCount := rfl
@[simp] theorem clearStatus_crc (s : State) : (clearStatus s).crc = s.crc := rfl
@[simp] theorem clearStatus_buf (s : State) : (clearStatus s).buf = s.buf := rfl
@[simp] theorem clearStatus_txbuf (s : State) : (clearStatus s).txbuf = s.txbuf := rfl
@[simp] theorem clearStatus_req (s : State) : (clearStatus s).req = s.req := rfl
@[simp] theorem clearStatus_txIdx (s : State) : (clearStatus s).txIdx = s.txIdx := rfl
@[simp] theorem clearStatus_rxacc (s : State) : (clearStatus s).rxacc = s.rxacc := rfl
@[simp] theorem clearStatus_txRecent (s : State) : (clearStatus s).txRecent = s.txRecent := rfl
@[simp] theorem clearStatus_cfg (s : State) : (clearStatus s).cfg = s.cfg := rfl
@[simp] theorem clearStatus_linkUp (s : State) : (clearStatus s).linkUp = s.linkUp := rfl
@[simp] theorem clearStatus_inputs (s : State) : (clearStatus s).inputs = s.inputs := rfl
@[simp] theorem clearStatus_draws (s : State) : (clearStatus s).draws = s.draws := rfl

/-! ## bufWrite -/

@[simp] theorem bufWrite_fsm (i : Nat) (v : Byte) (s : State) : (bufWrite i v s).fsm = s.fsm := rfl
@[simp] theorem bufWrite_addr (i : Nat) (v : Byte) (s : State) : (bufWrite i v s).addr = s.addr := rfl
@[simp] theorem bufWrite_done (i : Nat) (v : Byte) (s : State) : (bufWrite i v s).done = s.done := rfl
@[simp] theorem bufWrite_err (i : Nat) (v : Byte) (s : State) : (bufWrite i v s).err = s.err := rfl
@[simp] theorem bufWrite_excCode (i : Nat) (v : Byte) (s : State) : (bufWrite i v s).excCode = s.excCode := rfl
@[simp] theorem bufWrite_result (i : Nat) (v : Byte) (s : State) : (bufWrite i v s).result = s.result := rfl
@[simp] theorem bufWrite_rxCount (i : Nat) (v : Byte) (s : State) : (bufWrite i v s).rxCount = s.rxCount := rfl
@[simp] theorem bufWrite_crc (i : Nat) (v : Byte) (s : State) : (bufWrite i v s).crc = s.crc := rfl
@[simp] theorem bufWrite_buf (i : Nat) (v : Byte) (s : State) : (bufWrite i v s).buf = if i < s.cfg.maxFrame then s.buf.write i v else s.buf := rfl
@[simp] theorem bufWrite_txbuf (i : Nat) (v : Byte) (s : State) : (bufWrite i v s).txbuf = s.txbuf := rfl
@[simp] theorem bufWrite_req (i : Nat) (v : Byte) (s : State) : (bufWrite i v s).req = s.req := rfl
@[simp] theorem bufWrite_txIdx (i : Nat) (v : Byte) (s : State) : (bufWrite i v s).txIdx = s.txIdx := rfl
@[simp] theorem bufWrite_rxacc (i : Nat) (v : Byte) (s : State) : (bufWrite i v s).rxacc = s.rxacc := rfl
@[simp] theorem bufWrite_txRecent (i : Nat) (v : Byte) (s : State) : (bufWrite i v s).txRecent = s.txRecent := rfl
@[simp] theorem bufWrite_cfg (i : Nat) (v : Byte) (s : State) : (bufWrite i v s).cfg = s.cfg := rfl
@[simp] theorem bufWrite_linkUp (i : Nat) (v : Byte) (s : State) : (bufWrite i v s).linkUp = s.linkUp := rfl
@[simp] theorem bufWrite_inputs (i : Nat) (v : Byte) (s : State) : (bufWrite i v s).inputs = s.inputs := rfl
@[simp] theorem bufWrite_draws (i : Nat) (v : Byte) (s : State) : (bufWrite i v s).draws = s.draws := rfl

/-! ## storeResponse -/

@[simp] theorem storeResponse_fsm (f : Frame) (s : State) : (storeResponse f s).fsm = s.fsm := rfl
@[simp] theorem storeResponse_addr (f : Frame) (s : State) : (storeResponse f s).addr = s.addr := rfl
@[simp] theorem storeResponse_done (f : Frame) (s : State) : (storeResponse f s).done = s.done := rfl
@[simp] theorem storeResponse_err (f : Frame) (s : State) : (storeResponse f s).err = s.err := rfl
@[simp] theorem storeResponse_excCode (f : Frame) (s : State) : (storeResponse f s).excCode = s.excCode := rfl
@[simp] theorem storeResponse_result (f : Frame) (s : State) : (storeResponse f s).result = s.result := rfl
@[simp] theorem storeResponse_rxCount (f : Frame) (s : State) : (storeResponse f s).rxCount = lengthWord (min f.length s.cfg.maxFrame) := rfl
@[simp] theorem storeResponse_crc (f : Frame) (s : State) : (storeResponse f s).crc = s.crc := rfl
@[simp] theorem storeResponse_buf (f : Frame) (s : State) : (storeResponse f s).buf = s.buf.writeFrom 0 (f.take s.cfg.maxFrame) := rfl
@[simp] theorem storeResponse_txbuf (f : Frame) (s : State) : (storeResponse f s).txbuf = s.txbuf := rfl
@[simp] theorem storeResponse_req (f : Frame) (s : State) : (storeResponse f s).req = s.req := rfl
@[simp] theorem storeResponse_txIdx (f : Frame) (s : State) : (storeResponse f s).txIdx = s.txIdx := rfl
@[simp] theorem storeResponse_rxacc (f : Frame) (s : State) : (storeResponse f s).rxacc = s.rxacc := rfl
@[simp] theorem storeResponse_txRecent (f : Frame) (s : State) : (storeResponse f s).txRecent = s.txRecent := rfl
@[simp] theorem storeResponse_cfg (f : Frame) (s : State) : (storeResponse f s).cfg = s.cfg := rfl
@[simp] theorem storeResponse_linkUp (f : Frame) (s : State) : (storeResponse f s).linkUp = s.linkUp := rfl
@[simp] theorem storeResponse_inputs (f : Frame) (s : State) : (storeResponse f s).inputs = s.inputs := rfl
@[simp] theorem storeResponse_draws (f : Frame) (s : State) : (storeResponse f s).draws = s.draws := rfl

/-! ## gapPreElapsed -/

@[simp] theorem gapPreElapsed_fsm (s : State) : (gapPreElapsed s).fsm = .flush := rfl
@[simp] theorem gapPreElapsed_addr (s : State) : (gapPreElapsed s).addr = s.addr := rfl
@[simp] theorem gapPreElapsed_done (s : State) : (gapPreElapsed s).done = s.done := rfl
@[simp] theorem gapPreElapsed_err (s : State) : (gapPreElapsed s).err = s.err := rfl
@[simp] theorem gapPreElapsed_excCode (s : State) : (gapPreElapsed s).excCode = s.excCode := rfl
@[simp] theorem gapPreElapsed_result (s : State) : (gapPreElapsed s).result = s.result := rfl
@[simp] theorem gapPreElapsed_rxCount (s : State) : (gapPreElapsed s).rxCount = s.rxCount := rfl
@[simp] theorem gapPreElapsed_crc (s : State) : (gapPreElapsed s).crc = s.crc := rfl
@[simp] theorem gapPreElapsed_buf (s : State) : (gapPreElapsed s).buf = s.buf := rfl
@[simp] theorem gapPreElapsed_txbuf (s : State) : (gapPreElapsed s).txbuf = s.txbuf := rfl
@[simp] theorem gapPreElapsed_req (s : State) : (gapPreElapsed s).req = s.req := rfl
@[simp] theorem gapPreElapsed_txIdx (s : State) : (gapPreElapsed s).txIdx = s.txIdx := rfl
@[simp] theorem gapPreElapsed_rxacc (s : State) : (gapPreElapsed s).rxacc = s.rxacc := rfl
@[simp] theorem gapPreElapsed_txRecent (s : State) : (gapPreElapsed s).txRecent = false := rfl
@[simp] theorem gapPreElapsed_cfg (s : State) : (gapPreElapsed s).cfg = s.cfg := rfl
@[simp] theorem gapPreElapsed_linkUp (s : State) : (gapPreElapsed s).linkUp = s.linkUp := rfl
@[simp] theorem gapPreElapsed_inputs (s : State) : (gapPreElapsed s).inputs = s.inputs := rfl
@[simp] theorem gapPreElapsed_draws (s : State) : (gapPreElapsed s).draws = s.draws := rfl

/-! ## flushAcked -/

@[simp] theorem flushAcked_fsm (s : State) : (flushAcked s).fsm = .send := rfl
@[simp] theorem flushAcked_addr (s : State) : (flushAcked s).addr = s.addr := rfl
@[simp] theorem flushAcked_done (s : State) : (flushAcked s).done = s.done := rfl
@[simp] theorem flushAcked_err (s : State) : (flushAcked s).err = s.err := rfl
@[simp] theorem flushAcked_excCode (s : State) : (flushAcked s).excCode = s.excCode := rfl
@[simp] theorem flushAcked_result (s : State) : (flushAcked s).result = s.result := rfl
@[simp] theorem flushAcked_rxCount (s : State) : (flushAcked s).rxCount = s.rxCount := rfl
@[simp] theorem flushAcked_crc (s : State) : (flushAcked s).crc = s.crc := rfl
@[simp] theorem flushAcked_buf (s : State) : (flushAcked s).buf = s.buf := rfl
@[simp] theorem flushAcked_txbuf (s : State) : (flushAcked s).txbuf = s.txbuf := rfl
@[simp] theorem flushAcked_req (s : State) : (flushAcked s).req = s.req := rfl
@[simp] theorem flushAcked_txIdx (s : State) : (flushAcked s).txIdx = 0 := rfl
@[simp] theorem flushAcked_rxacc (s : State) : (flushAcked s).rxacc = s.rxacc := rfl
@[simp] theorem flushAcked_txRecent (s : State) : (flushAcked s).txRecent = s.txRecent := rfl
@[simp] theorem flushAcked_cfg (s : State) : (flushAcked s).cfg = s.cfg := rfl
@[simp] theorem flushAcked_linkUp (s : State) : (flushAcked s).linkUp = s.linkUp := rfl
@[simp] theorem flushAcked_inputs (s : State) : (flushAcked s).inputs = s.inputs := rfl
@[simp] theorem flushAcked_draws (s : State) : (flushAcked s).draws = s.draws := rfl

/-! ## gapPostElapsed -/

@[simp] theorem gapPostElapsed_fsm (s : State) : (gapPostElapsed s).fsm = .recv := rfl
@[simp] theorem gapPostElapsed_addr (s : State) : (gapPostElapsed s).addr = s.addr := rfl
@[simp] theorem gapPostElapsed_done (s : State) : (gapPostElapsed s).done = s.done := rfl
@[simp] theorem gapPostElapsed_err (s : State) : (gapPostElapsed s).err = s.err := rfl
@[simp] theorem gapPostElapsed_excCode (s : State) : (gapPostElapsed s).excCode = s.excCode := rfl
@[simp] theorem gapPostElapsed_result (s : State) : (gapPostElapsed s).result = s.result := rfl
@[simp] theorem gapPostElapsed_rxCount (s : State) : (gapPostElapsed s).rxCount = s.rxCount := rfl
@[simp] theorem gapPostElapsed_crc (s : State) : (gapPostElapsed s).crc = s.crc := rfl
@[simp] theorem gapPostElapsed_buf (s : State) : (gapPostElapsed s).buf = s.buf := rfl
@[simp] theorem gapPostElapsed_txbuf (s : State) : (gapPostElapsed s).txbuf = s.txbuf := rfl
@[simp] theorem gapPostElapsed_req (s : State) : (gapPostElapsed s).req = s.req := rfl
@[simp] theorem gapPostElapsed_txIdx (s : State) : (gapPostElapsed s).txIdx = s.txIdx := rfl
@[simp] theorem gapPostElapsed_rxacc (s : State) : (gapPostElapsed s).rxacc = [] := rfl
@[simp] theorem gapPostElapsed_txRecent (s : State) : (gapPostElapsed s).txRecent = false := rfl
@[simp] theorem gapPostElapsed_cfg (s : State) : (gapPostElapsed s).cfg = s.cfg := rfl
@[simp] theorem gapPostElapsed_linkUp (s : State) : (gapPostElapsed s).linkUp = s.linkUp := rfl
@[simp] theorem gapPostElapsed_inputs (s : State) : (gapPostElapsed s).inputs = s.inputs := rfl
@[simp] theorem gapPostElapsed_draws (s : State) : (gapPostElapsed s).draws = s.draws := rfl

/-! ## latchSample -/

@[simp] theorem latchSample_fsm (p : PortSample) (s : State) : (latchSample p s).fsm = s.fsm := rfl
@[simp] theorem latchSample_addr (p : PortSample) (s : State) : (latchSample p s).addr = s.addr := rfl
@[simp] theorem latchSample_done (p : PortSample) (s : State) : (latchSample p s).done = s.done := rfl
@[simp] theorem latchSample_err (p : PortSample) (s : State) : (latchSample p s).err = s.err := rfl
@[simp] theorem latchSample_excCode (p : PortSample) (s : State) : (latchSample p s).excCode = s.excCode := rfl
@[simp] theorem latchSample_result (p : PortSample) (s : State) : (latchSample p s).result = s.result := rfl
@[simp] theorem latchSample_rxCount (p : PortSample) (s : State) : (latchSample p s).rxCount = s.rxCount := rfl
@[simp] theorem latchSample_crc (p : PortSample) (s : State) : (latchSample p s).crc = s.crc := rfl
@[simp] theorem latchSample_buf (p : PortSample) (s : State) : (latchSample p s).buf = s.buf := rfl
@[simp] theorem latchSample_txbuf (p : PortSample) (s : State) : (latchSample p s).txbuf = s.txbuf := rfl
@[simp] theorem latchSample_req (p : PortSample) (s : State) : (latchSample p s).req = s.req := rfl
@[simp] theorem latchSample_txIdx (p : PortSample) (s : State) : (latchSample p s).txIdx = s.txIdx := rfl
@[simp] theorem latchSample_rxacc (p : PortSample) (s : State) : (latchSample p s).rxacc = s.rxacc := rfl
@[simp] theorem latchSample_txRecent (p : PortSample) (s : State) : (latchSample p s).txRecent = (s.txRecent && !p.ifdElapsed) := rfl
@[simp] theorem latchSample_cfg (p : PortSample) (s : State) : (latchSample p s).cfg = s.cfg := rfl
@[simp] theorem latchSample_linkUp (p : PortSample) (s : State) : (latchSample p s).linkUp = p.linkUp := rfl
@[simp] theorem latchSample_inputs (p : PortSample) (s : State) : (latchSample p s).inputs = s.inputs := rfl
@[simp] theorem latchSample_draws (p : PortSample) (s : State) : (latchSample p s).draws = s.draws := rfl

/-! ## consume -/

@[simp] theorem consume_fsm (rest : List Input) (s : State) : (consume rest s).fsm = s.fsm := rfl
@[simp] theorem consume_addr (rest : List Input) (s : State) : (consume rest s).addr = s.addr := rfl
@[simp] theorem consume_done (rest : List Input) (s : State) : (consume rest s).done = s.done := rfl
@[simp] theorem consume_err (rest : List Input) (s : State) : (consume rest s).err = s.err := rfl
@[simp] theorem consume_excCode (rest : List Input) (s : State) : (consume rest s).excCode = s.excCode := rfl
@[simp] theorem consume_result (rest : List Input) (s : State) : (consume rest s).result = s.result := rfl
@[simp] theorem consume_rxCount (rest : List Input) (s : State) : (consume rest s).rxCount = s.rxCount := rfl
@[simp] theorem consume_crc (rest : List Input) (s : State) : (consume rest s).crc = s.crc := rfl
@[simp] theorem consume_buf (rest : List Input) (s : State) : (consume rest s).buf = s.buf := rfl
@[simp] theorem consume_txbuf (rest : List Input) (s : State) : (consume rest s).txbuf = s.txbuf := rfl
@[simp] theorem consume_req (rest : List Input) (s : State) : (consume rest s).req = s.req := rfl
@[simp] theorem consume_txIdx (rest : List Input) (s : State) : (consume rest s).txIdx = s.txIdx := rfl
@[simp] theorem consume_rxacc (rest : List Input) (s : State) : (consume rest s).rxacc = s.rxacc := rfl
@[simp] theorem consume_txRecent (rest : List Input) (s : State) : (consume rest s).txRecent = s.txRecent := rfl
@[simp] theorem consume_cfg (rest : List Input) (s : State) : (consume rest s).cfg = s.cfg := rfl
@[simp] theorem consume_linkUp (rest : List Input) (s : State) : (consume rest s).linkUp = s.linkUp := rfl
@[simp] theorem consume_inputs (rest : List Input) (s : State) : (consume rest s).inputs = rest := rfl
@[simp] theorem consume_draws (rest : List Input) (s : State) : (consume rest s).draws = s.draws + 1 := rfl

/-! ## applyReset -/

@[simp] theorem applyReset_fsm (s : State) : (applyReset s).fsm = (State.resetWith s.cfg).fsm := rfl
@[simp] theorem applyReset_addr (s : State) : (applyReset s).addr = (State.resetWith s.cfg).addr := rfl
@[simp] theorem applyReset_done (s : State) : (applyReset s).done = (State.resetWith s.cfg).done := rfl
@[simp] theorem applyReset_err (s : State) : (applyReset s).err = (State.resetWith s.cfg).err := rfl
@[simp] theorem applyReset_excCode (s : State) : (applyReset s).excCode = (State.resetWith s.cfg).excCode := rfl
@[simp] theorem applyReset_result (s : State) : (applyReset s).result = (State.resetWith s.cfg).result := rfl
@[simp] theorem applyReset_rxCount (s : State) : (applyReset s).rxCount = (State.resetWith s.cfg).rxCount := rfl
@[simp] theorem applyReset_crc (s : State) : (applyReset s).crc = (State.resetWith s.cfg).crc := rfl
@[simp] theorem applyReset_buf (s : State) : (applyReset s).buf = (State.resetWith s.cfg).buf := rfl
@[simp] theorem applyReset_txbuf (s : State) : (applyReset s).txbuf = (State.resetWith s.cfg).txbuf := rfl
@[simp] theorem applyReset_req (s : State) : (applyReset s).req = (State.resetWith s.cfg).req := rfl
@[simp] theorem applyReset_txIdx (s : State) : (applyReset s).txIdx = (State.resetWith s.cfg).txIdx := rfl
@[simp] theorem applyReset_rxacc (s : State) : (applyReset s).rxacc = (State.resetWith s.cfg).rxacc := rfl
@[simp] theorem applyReset_txRecent (s : State) : (applyReset s).txRecent = (State.resetWith s.cfg).txRecent := rfl
@[simp] theorem applyReset_cfg (s : State) : (applyReset s).cfg = s.cfg := rfl
@[simp] theorem applyReset_linkUp (s : State) : (applyReset s).linkUp = s.linkUp := rfl
@[simp] theorem applyReset_inputs (s : State) : (applyReset s).inputs = s.inputs := rfl
@[simp] theorem applyReset_draws (s : State) : (applyReset s).draws = s.draws := rfl

/-! ## resetWith -/

@[simp] theorem resetWith_fsm (c : Config) : (State.resetWith c).fsm = .idle := rfl
@[simp] theorem resetWith_addr (c : Config) : (State.resetWith c).addr = BitVec.ofNat 8 c.addrReset := rfl
@[simp] theorem resetWith_done (c : Config) : (State.resetWith c).done = false := rfl
@[simp] theorem resetWith_err (c : Config) : (State.resetWith c).err = .ok := rfl
@[simp] theorem resetWith_excCode (c : Config) : (State.resetWith c).excCode = 0 := rfl
@[simp] theorem resetWith_result (c : Config) : (State.resetWith c).result = 0 := rfl
@[simp] theorem resetWith_rxCount (c : Config) : (State.resetWith c).rxCount = 0 := rfl
@[simp] theorem resetWith_crc (c : Config) : (State.resetWith c).crc = 0 := rfl
@[simp] theorem resetWith_buf (c : Config) : (State.resetWith c).buf = [] := rfl
@[simp] theorem resetWith_txbuf (c : Config) : (State.resetWith c).txbuf = [0, 0, 0, 0, 0, 0, 0, 0] := rfl
@[simp] theorem resetWith_req (c : Config) : (State.resetWith c).req = Request.mk .read 0 0 0 0 := rfl
@[simp] theorem resetWith_txIdx (c : Config) : (State.resetWith c).txIdx = 0 := rfl
@[simp] theorem resetWith_rxacc (c : Config) : (State.resetWith c).rxacc = [] := rfl
@[simp] theorem resetWith_txRecent (c : Config) : (State.resetWith c).txRecent = false := rfl
@[simp] theorem resetWith_cfg (c : Config) : (State.resetWith c).cfg = c := rfl
@[simp] theorem resetWith_linkUp (c : Config) : (State.resetWith c).linkUp = false := rfl
@[simp] theorem resetWith_inputs (c : Config) : (State.resetWith c).inputs = [] := rfl
@[simp] theorem resetWith_draws (c : Config) : (State.resetWith c).draws = 0 := rfl

/-! ## receiveFrame -/

@[simp] theorem receiveFrame_fsm (f : Frame) (s : State) :
    (receiveFrame f s).fsm = .idle := rfl
@[simp] theorem receiveFrame_addr (f : Frame) (s : State) :
    (receiveFrame f s).addr = s.addr := rfl
@[simp] theorem receiveFrame_done (f : Frame) (s : State) :
    (receiveFrame f s).done = true := rfl
@[simp] theorem receiveFrame_err (f : Frame) (s : State) :
    (receiveFrame f s).err = (validate s.cfg s.req f).err := rfl
@[simp] theorem receiveFrame_excCode (f : Frame) (s : State) :
    (receiveFrame f s).excCode = if (validate s.cfg s.req f).err = .deviceException then (validate s.cfg s.req f).excCode else 0 := rfl
@[simp] theorem receiveFrame_result (f : Frame) (s : State) :
    (receiveFrame f s).result = if (validate s.cfg s.req f).err = .ok then (validate s.cfg s.req f).result else 0 := rfl
@[simp] theorem receiveFrame_rxCount (f : Frame) (s : State) :
    (receiveFrame f s).rxCount = lengthWord (min f.length s.cfg.maxFrame) := rfl
@[simp] theorem receiveFrame_crc (f : Frame) (s : State) :
    (receiveFrame f s).crc = s.crc := rfl
@[simp] theorem receiveFrame_buf (f : Frame) (s : State) :
    (receiveFrame f s).buf = s.buf.writeFrom 0 (f.take s.cfg.maxFrame) := rfl
@[simp] theorem receiveFrame_txbuf (f : Frame) (s : State) :
    (receiveFrame f s).txbuf = s.txbuf := rfl
@[simp] theorem receiveFrame_req (f : Frame) (s : State) :
    (receiveFrame f s).req = s.req := rfl
@[simp] theorem receiveFrame_txIdx (f : Frame) (s : State) :
    (receiveFrame f s).txIdx = s.txIdx := rfl
@[simp] theorem receiveFrame_rxacc (f : Frame) (s : State) :
    (receiveFrame f s).rxacc = s.rxacc := rfl
@[simp] theorem receiveFrame_txRecent (f : Frame) (s : State) :
    (receiveFrame f s).txRecent = s.txRecent := rfl
@[simp] theorem receiveFrame_cfg (f : Frame) (s : State) :
    (receiveFrame f s).cfg = s.cfg := rfl
@[simp] theorem receiveFrame_linkUp (f : Frame) (s : State) :
    (receiveFrame f s).linkUp = s.linkUp := rfl
@[simp] theorem receiveFrame_inputs (f : Frame) (s : State) :
    (receiveFrame f s).inputs = s.inputs := rfl
@[simp] theorem receiveFrame_draws (f : Frame) (s : State) :
    (receiveFrame f s).draws = s.draws := rfl

end Sys2Proof.Laws
end

