-- ==== Sys2Proof/Laws/Buf.lean ====
section
/-! SUPPORT. Laws/Buf.lean: what reads of the frame buffer give after writes, and the canonical form. -/

namespace Sys2Proof.Laws

open Machine

/-- A cell that has been given a value reads as that value; every other cell reads as before. -/
theorem read_write (m : Memory) (i : Nat) (v : Byte) (j : Nat) :
    (m.write i v).read j = if j = i then some v else m.read j := by
  induction m with
  | nil => simp [Memory.write, Memory.read, eq_comm]
  | cons cell m ih =>
    obtain ⟨a, w⟩ := cell
    by_cases h1 : i < a
    · simp only [Memory.write, h1, if_true, Memory.read]
      by_cases h2 : j = i
      · simp [h2]
      · simp [h2, Ne.symm h2]
    · by_cases h2 : i = a
      · subst h2
        simp only [Memory.write, lt_irrefl, if_false, if_true, Memory.read]
        by_cases h3 : j = i
        · simp [h3]
        · simp [h3, Ne.symm h3]
      · simp only [Memory.write, h1, h2, if_false, Memory.read, ih]
        by_cases h3 : a = j
        · subst h3; simp [Ne.symm h2]
        · simp [h3]

@[simp] theorem read_write_same (m : Memory) (i : Nat) (v : Byte) : (m.write i v).read i = some v := by
  simp [read_write]

theorem read_write_other (m : Memory) {i j : Nat} (v : Byte) (h : j ≠ i) : (m.write i v).read j = m.read j := by
  simp [read_write, h]

/-- After the bytes of `f` are stored from index i on, the cells i to i + |f| - 1 read as the bytes of `f` and every
other cell reads as before. -/
theorem read_writeFrom (f : Frame) (m : Memory) (i j : Nat) :
    (m.writeFrom i f).read j = if i ≤ j ∧ j < i + f.length then some (f.getD (j - i) 0) else m.read j := by
  induction f generalizing m i with
  | nil => simp [Memory.writeFrom]
  | cons v f ih =>
    simp only [Memory.writeFrom, ih, List.length_cons, read_write]
    rcases Nat.lt_trichotomy j i with h | h | h
    · rw [if_neg (by omega), if_neg (by omega), if_neg (by omega)]
    · subst h; rw [if_neg (by omega), if_pos rfl, if_pos (by omega)]; simp
    · by_cases h2 : j < i + (f.length + 1)
      · rw [if_pos (by omega), if_pos (by omega)]
        obtain ⟨k, rfl⟩ : ∃ k, j = i + k + 1 := ⟨j - i - 1, by omega⟩
        have e1 : i + k + 1 - i = k + 1 := by omega
        have e2 : i + k + 1 - (i + 1) = k := by omega
        simp [e1, e2]
      · rw [if_neg (by omega), if_neg (by omega), if_neg (by omega)]

/-- A listed cell of a memory after a write is the written one or was listed before. -/
theorem mem_write {m : Memory} {i : Nat} {v : Byte} {cell : Host.Cell} (h : cell ∈ m.write i v) :
    cell = (i, v) ∨ cell ∈ m := by
  induction m with
  | nil => simpa [Memory.write] using h
  | cons head m ih =>
    obtain ⟨a, w⟩ := head
    unfold Memory.write at h
    split at h
    · simpa using h
    · split at h
      · rcases List.mem_cons.1 h with h | h
        · exact .inl h
        · exact .inr (List.mem_cons_of_mem _ h)
      · rcases List.mem_cons.1 h with h | h
        · exact .inr (by simp [h])
        · rcases ih h with h | h
          · exact .inl h
          · exact .inr (List.mem_cons_of_mem _ h)

/-- A write keeps the canonical form. -/
theorem write_wf {m : Memory} (h : m.wf) (i : Nat) (v : Byte) : (m.write i v).wf := by
  induction m with
  | nil => simp [Memory.write, Memory.wf]
  | cons head m ih =>
    obtain ⟨a, w⟩ := head
    have h0 := List.pairwise_cons.1 h
    unfold Memory.write
    split
    · next hlt =>
      refine List.pairwise_cons.2 ⟨fun cell hc => ?_, h⟩
      rcases List.mem_cons.1 hc with rfl | hc
      · exact hlt
      · exact lt_trans hlt (h0.1 cell hc)
    · split
      · next heq => subst heq; exact List.pairwise_cons.2 ⟨h0.1, h0.2⟩
      · next hge hne =>
        refine List.pairwise_cons.2 ⟨fun cell hc => ?_, ih h0.2⟩
        rcases mem_write hc with rfl | hc
        · show a < i; omega
        · exact h0.1 cell hc

/-- Storing a frame keeps the canonical form. -/
theorem writeFrom_wf (f : Frame) {m : Memory} (h : m.wf) (i : Nat) : (m.writeFrom i f).wf := by
  induction f generalizing m i with
  | nil => exact h
  | cons v f ih => exact ih (write_wf h i v) (i + 1)

/-- A write below a bound keeps every listed index below it. -/
theorem write_bounded {m : Memory} {b : Nat} (h : ∀ cell ∈ m, cell.1 < b) {i : Nat} (hi : i < b) (v : Byte) :
    ∀ cell ∈ m.write i v, cell.1 < b := by
  intro cell hc
  rcases mem_write hc with rfl | hc
  · exact hi
  · exact h cell hc

/-- Storing a frame that ends below a bound keeps every listed index below it. -/
theorem writeFrom_bounded (f : Frame) {m : Memory} {b : Nat} (h : ∀ cell ∈ m, cell.1 < b) {i : Nat}
    (hi : i + f.length ≤ b) : ∀ cell ∈ m.writeFrom i f, cell.1 < b := by
  induction f generalizing m i with
  | nil => exact h
  | cons v f ih =>
    simp only [List.length_cons] at hi
    exact ih (write_bounded h (by omega) v) (by omega)

/-- Reading n cells gives the frame `f` exactly when each cell holds the byte of `f` at its place. -/
theorem readRange_eq_some {m : Memory} {i n : Nat} {f : Frame} :
    m.readRange i n = some f ↔ f.length = n ∧ ∀ j, j < n → m.read (i + j) = some (f.getD j 0) := by
  induction n generalizing i f with
  | zero =>
    simp only [Memory.readRange, Option.some.injEq, Nat.not_lt_zero, false_implies, implies_true, and_true]
    constructor
    · rintro rfl; rfl
    · intro h; exact (List.length_eq_zero_iff.1 h).symm
  | succ n ih =>
    unfold Memory.readRange
    constructor
    · intro h
      split at h
      · cases h
      · next v hv =>
        split at h
        · cases h
        · next vs hvs =>
          obtain ⟨h1, h2⟩ := ih.1 hvs
          cases h
          refine ⟨by simp [h1], fun j hj => ?_⟩
          cases j with
          | zero => simpa using hv
          | succ j =>
            have := h2 j (by omega)
            rw [show i + (j + 1) = i + 1 + j by omega, this]; simp
    · rintro ⟨h1, h2⟩
      cases f with
      | nil => simp at h1
      | cons v vs =>
        have h0 := h2 0 (by omega)
        simp only [Nat.add_zero, List.getD_cons_zero] at h0
        have h3 : m.readRange (i + 1) n = some vs := by
          refine ih.2 ⟨by simpa using h1, fun j hj => ?_⟩
          have := h2 (j + 1) (by omega)
          rw [show i + 1 + j = i + (j + 1) by omega, this]; simp
        rw [h0]; simp only [h3]

/-- Reading n cells fails exactly when one of them holds no value. -/
theorem readRange_eq_none {m : Memory} {i n : Nat} :
    m.readRange i n = none ↔ ∃ j, j < n ∧ m.read (i + j) = none := by
  induction n generalizing i with
  | zero => simp [Memory.readRange]
  | succ n ih =>
    unfold Memory.readRange
    constructor
    · intro h
      split at h
      · next hv => exact ⟨0, by omega, by simpa using hv⟩
      · split at h
        · next hvs =>
          obtain ⟨j, hj, hr⟩ := ih.1 hvs
          exact ⟨j + 1, by omega, by rw [show i + (j + 1) = i + 1 + j by omega]; exact hr⟩
        · cases h
    · rintro ⟨j, hj, hr⟩
      cases j with
      | zero => simp only [Nat.add_zero] at hr; rw [hr]
      | succ j =>
        have h3 : m.readRange (i + 1) n = none := ih.2 ⟨j, by omega, by rw [show i + 1 + j = i + (j + 1) by omega]; exact hr⟩
        split
        · rfl
        · simp only [h3]

end Sys2Proof.Laws
end

