-- ==== Sys2Proof/Laws/Crc.lean ====
section
/-! SUPPORT. Laws/Crc.lean: bytes of a word, lengths of frames with a CRC, and what `crcOk` asks. -/

namespace Sys2Proof.Laws

open Machine

/-- Two values one after the other, as a number. -/
theorem toNat_append_eq {m n : Nat} (x : BitVec m) (y : BitVec n) : (x ++ y).toNat = x.toNat * 2 ^ n + y.toNat := by
  rw [BitVec.toNat_append, ← Nat.shiftLeft_add_eq_or_of_lt y.isLt, Nat.shiftLeft_eq]

theorem hiByte_toNat (v : Word) : (hiByte v).toNat = v.toNat / 256 := by
  have := v.isLt
  simp only [hiByte, BitVec.extractLsb'_toNat, Nat.shiftRight_eq_div_pow]
  omega

theorem loByte_toNat (v : Word) : (loByte v).toNat = v.toNat % 256 := by
  simp [loByte, BitVec.extractLsb'_toNat]

theorem wordOf_toNat (h l : Byte) : (wordOf h l).toNat = h.toNat * 256 + l.toNat := toNat_append_eq h l

/-- The two bytes of a word, high first, give the word back. -/
@[simp] theorem wordOf_hi_lo (v : Word) : wordOf (hiByte v) (loByte v) = v := by
  apply BitVec.eq_of_toNat_eq
  rw [wordOf_toNat, hiByte_toNat, loByte_toNat]
  omega

@[simp] theorem hiByte_wordOf (h l : Byte) : hiByte (wordOf h l) = h := by
  have := l.isLt
  apply BitVec.eq_of_toNat_eq
  rw [hiByte_toNat, wordOf_toNat]
  omega

@[simp] theorem loByte_wordOf (h l : Byte) : loByte (wordOf h l) = l := by
  have := l.isLt
  apply BitVec.eq_of_toNat_eq
  rw [loByte_toNat, wordOf_toNat]
  omega

/-- Two words with the same two bytes are equal. -/
theorem word_ext {v w : Word} (h : hiByte v = hiByte w) (l : loByte v = loByte w) : v = w := by
  rw [← wordOf_hi_lo v, ← wordOf_hi_lo w, h, l]

@[simp] theorem crcBytes_length (f : Frame) : (crcBytes f).length = 2 := rfl

@[simp] theorem withCrc_length (f : Frame) : (withCrc f).length = f.length + 2 := by
  simp [withCrc]

/-- The bytes before the CRC. -/
@[simp] theorem withCrc_take (f : Frame) : (withCrc f).take f.length = f := by
  simp [withCrc]

@[simp] theorem withCrc_drop (f : Frame) : (withCrc f).drop f.length = crcBytes f := by
  simp [withCrc]

/-- A string passes the check exactly when it has two bytes and they are the CRC of the rest. -/
theorem crcOk_iff (g : Frame) :
    crcOk g = true ↔ 2 ≤ g.length ∧ g.drop (g.length - 2) = crcBytes (g.take (g.length - 2)) := by
  simp [crcOk]

/-- The CRC of a concatenation goes on from the CRC register of its first part. -/
theorem crcFrom_append (c : Word) (f g : Frame) : crcFrom c (f ++ g) = crcFrom (crcFrom c f) g := by
  induction f generalizing c with
  | nil => rfl
  | cons b f ih => exact ih _

@[simp] theorem requestFrame_length (dev fc : Byte) (reg val : Word) : (requestFrame dev fc reg val).length = 8 := rfl

@[simp] theorem readResponseFrame_length (c : Config) (dev : Byte) (hdrRest payload : Frame) :
    (readResponseFrame c dev hdrRest payload).length = hdrRest.length + payload.length + 4 := by
  simp [readResponseFrame]

@[simp] theorem exceptionFrame_length (c : Config) (kind : Kind) (dev code : Byte) (rest : Frame) :
    (exceptionFrame c kind dev code rest).length = rest.length + 5 := by
  simp [exceptionFrame]

/-! ## The fields of a command word -/

/-- The command word as a number (30_encoding.md R70). -/
theorem encodeCommand_toNat (rsv op : BitVec 4) (a b : Word) :
    (encodeCommand rsv op a b).toNat = b.toNat * 2 ^ 24 + a.toNat * 2 ^ 8 + rsv.toNat * 2 ^ 4 + op.toNat := by
  show BitVec.toNat (b ++ a ++ rsv ++ op) = _
  rw [toNat_append_eq, toNat_append_eq, toNat_append_eq]
  omega

theorem cmdOp_toNat (w : CmdWord) : (cmdOp w).toNat = w.toNat % 2 ^ 4 := by
  simp [cmdOp, BitVec.extractLsb'_toNat]

theorem cmdRsv_toNat (w : CmdWord) : (cmdRsv w).toNat = w.toNat / 2 ^ 4 % 2 ^ 4 := by
  simp only [cmdRsv, BitVec.extractLsb'_toNat, Nat.shiftRight_eq_div_pow]

theorem cmdA_toNat (w : CmdWord) : (cmdA w).toNat = w.toNat / 2 ^ 8 % 2 ^ 16 := by
  simp only [cmdA, BitVec.extractLsb'_toNat, Nat.shiftRight_eq_div_pow]

theorem cmdB_toNat (w : CmdWord) : (cmdB w).toNat = w.toNat / 2 ^ 24 % 2 ^ 16 := by
  simp only [cmdB, BitVec.extractLsb'_toNat, Nat.shiftRight_eq_div_pow]

@[simp] theorem cmdOp_encodeCommand (rsv op : BitVec 4) (a b : Word) : cmdOp (encodeCommand rsv op a b) = op := by
  have := op.isLt
  apply BitVec.eq_of_toNat_eq
  rw [cmdOp_toNat, encodeCommand_toNat]
  omega

@[simp] theorem cmdRsv_encodeCommand (rsv op : BitVec 4) (a b : Word) : cmdRsv (encodeCommand rsv op a b) = rsv := by
  have := op.isLt
  have := rsv.isLt
  apply BitVec.eq_of_toNat_eq
  rw [cmdRsv_toNat, encodeCommand_toNat]
  omega

@[simp] theorem cmdA_encodeCommand (rsv op : BitVec 4) (a b : Word) : cmdA (encodeCommand rsv op a b) = a := by
  have := op.isLt
  have := rsv.isLt
  have := a.isLt
  apply BitVec.eq_of_toNat_eq
  rw [cmdA_toNat, encodeCommand_toNat]
  omega

@[simp] theorem cmdB_encodeCommand (rsv op : BitVec 4) (a b : Word) : cmdB (encodeCommand rsv op a b) = b := by
  have := op.isLt
  have := rsv.isLt
  have := a.isLt
  have := b.isLt
  apply BitVec.eq_of_toNat_eq
  rw [cmdB_toNat, encodeCommand_toNat]
  omega

/-- Every command word is the encoding of its four fields. -/
theorem encodeCommand_fields (w : CmdWord) : encodeCommand (cmdRsv w) (cmdOp w) (cmdA w) (cmdB w) = w := by
  have := w.isLt
  apply BitVec.eq_of_toNat_eq
  rw [encodeCommand_toNat, cmdRsv_toNat, cmdOp_toNat, cmdA_toNat, cmdB_toNat]
  omega

end Sys2Proof.Laws
end

