-- ==== Sys2Proof/Laws/Ops.lean ====
section
/-! SUPPORT. Laws/Ops.lean: for each shared operation and for `exec`, everything it can do. -/

namespace Sys2Proof.Laws

open Machine

/-! ## Guards -/

theorem inState_next {st : Fsm} {k : State → StepResult} {s t : State} :
    inState st k s = .next t ↔ configOk s.cfg = true ∧ s.fsm = st ∧ k s = .next t := by
  unfold inState
  by_cases hc : configOk s.cfg = true
  · by_cases hf : s.fsm = st <;> simp [hc, hf]
  · simp [hc]

theorem inState_run {st : Fsm} {k : State → StepResult} {s : State} (hc : configOk s.cfg = true) (hf : s.fsm = st) :
    inState st k s = k s := by
  simp [inState, hc, hf]

theorem inState_noStep {st : Fsm} {k : State → StepResult} {s : State} (hc : configOk s.cfg = true)
    (hf : s.fsm ≠ st) : inState st k s = .fault .noStep := by
  simp [inState, hc, hf]

theorem inState_badConfig {st : Fsm} {k : State → StepResult} {s : State} (hc : configOk s.cfg = false) :
    inState st k s = .refused .badConfig := by
  simp [inState, hc]

theorem acceptCommand_next {k : State → StepResult} {s t : State} :
    acceptCommand k s = .next t ↔ configOk s.cfg = true ∧ s.fsm = .idle ∧ k (clearStatus s) = .next t :=
  inState_next

theorem acceptCommand_run {k : State → StepResult} {s : State} (hc : configOk s.cfg = true) (hf : s.fsm = .idle) :
    acceptCommand k s = k (clearStatus s) :=
  inState_run hc hf

/-! ## Transactions and commands -/

theorem startTransaction_up {kind : Kind} {fc : Byte} {a b : Word} {s : State} (h : s.linkUp = true) :
    startTransaction kind fc a b s =
      { s with
        req := requestOf kind s.addr fc a b
        rxCount := 0
        txbuf := encodeReq (requestOf kind s.addr fc a b)
        fsm := .gapPre } := by
  simp [startTransaction, h]

theorem startTransaction_down {kind : Kind} {fc : Byte} {a b : Word} {s : State} (h : s.linkUp = false) :
    startTransaction kind fc a b s =
      raiseError .notConnected 0 { s with req := requestOf kind s.addr fc a b, rxCount := 0 } := by
  simp [startTransaction, h]

theorem setAddress_in {a : Word} {s : State} (h : addrInRange s.cfg a = true) :
    setAddress a s = complete .ok (zext16 (loByte a)) 0 { s with addr := loByte a } := by
  simp [setAddress, h]

theorem setAddress_out {a : Word} {s : State} (h : addrInRange s.cfg a = false) :
    setAddress a s = raiseError .invalidArg 0 s := by
  simp [setAddress, h]

/-- Everything CRC_APPEND can do. -/
theorem crcAppendEffect_cases (n : Nat) (s : State) :
    (s.cfg.maxFrame < n + 2 ∧ crcAppendEffect n s = .next (raiseError .tooLarge 0 s)) ∨
    (n + 2 ≤ s.cfg.maxFrame ∧ s.buf.readRange 0 n = none ∧ crcAppendEffect n s = .fault (.unwrittenCell .crcAppend)) ∨
    (n + 2 ≤ s.cfg.maxFrame ∧ ∃ d, s.buf.readRange 0 n = some d ∧ crcAppendEffect n s = .next (appendCrc n d s)) := by
  by_cases h : s.cfg.maxFrame < n + 2
  · exact .inl ⟨h, if_pos h⟩
  · have e : crcAppendEffect n s = _ := if_neg h
    cases hr : s.buf.readRange 0 n with
    | none => exact .inr (.inl ⟨by omega, rfl, by rw [e, hr]⟩)
    | some d => exact .inr (.inr ⟨by omega, d, rfl, by rw [e, hr]⟩)

/-- Everything CRC_CHECK can do. -/
theorem crcCheckEffect_cases (n : Nat) (s : State) :
    (s.cfg.maxFrame < n ∧ crcCheckEffect n s = .next (raiseError .tooLarge 0 s)) ∨
    (n ≤ s.cfg.maxFrame ∧ n < 2 ∧ crcCheckEffect n s = .next (raiseError .short 0 s)) ∨
    (n ≤ s.cfg.maxFrame ∧ 2 ≤ n ∧ s.buf.readRange 0 n = none ∧
      crcCheckEffect n s = .fault (.unwrittenCell .crcCheck)) ∨
    (n ≤ s.cfg.maxFrame ∧ 2 ≤ n ∧ ∃ g, s.buf.readRange 0 n = some g ∧ crcCheckEffect n s = .next (checkCrc n g s)) := by
  by_cases h : s.cfg.maxFrame < n
  · exact .inl ⟨h, if_pos h⟩
  · have e1 : crcCheckEffect n s = _ := if_neg h
    by_cases h2 : n < 2
    · exact .inr (.inl ⟨by omega, h2, by rw [e1, if_pos h2]⟩)
    · rw [if_neg h2] at e1
      cases hr : s.buf.readRange 0 n with
      | none => exact .inr (.inr (.inl ⟨by omega, by omega, rfl, by rw [e1, hr]⟩))
      | some g => exact .inr (.inr (.inr ⟨by omega, by omega, g, rfl, by rw [e1, hr]⟩))

theorem transmitted_next {f : Frame} {s t : State} :
    transmitted f s = .next t ↔
      configOk s.cfg = true ∧ s.fsm = .send ∧ s.txbuf = f ∧ t = txDone .ok s := by
  unfold transmitted
  rw [inState_next]
  by_cases h : s.txbuf = f
  · rw [if_pos h]
    exact ⟨fun ⟨h1, h2, h3⟩ => ⟨h1, h2, h, (Host.Outcome.next.inj h3).symm⟩, fun ⟨h1, h2, _, h4⟩ => ⟨h1, h2, by rw [h4]⟩⟩
  · rw [if_neg h]
    refine ⟨fun hh => ?_, fun hh => absurd hh.2.2.1 h⟩
    cases hh.2.2

theorem received_next {f : Frame} {s t : State} :
    received f s = .next t ↔ configOk s.cfg = true ∧ s.fsm = .recv ∧ t = rxDone (.frame f) s := by
  unfold received
  rw [inState_next]
  exact ⟨fun ⟨h1, h2, h3⟩ => ⟨h1, h2, (Host.Outcome.next.inj h3).symm⟩, fun ⟨h1, h2, h3⟩ => ⟨h1, h2, by rw [h3]⟩⟩

theorem rxDone_frame {f : Frame} (h : f ≠ []) (s : State) : rxDone (.frame f) s = receiveFrame f s := by
  cases f with
  | nil => exact absurd rfl h
  | cons b f => rfl

theorem txDone_ok (s : State) : txDone .ok s = { s with txRecent := true, fsm := .gapPost } := rfl

theorem txDone_error {o : TxOutcome} (h : o ≠ .ok) (s : State) :
    txDone o s = raiseError (txError o) 0 { s with txRecent := true } := by
  cases o <;> first | exact absurd rfl h | rfl

theorem withCrc_ne_nil (f : Frame) : withCrc f ≠ [] := by
  intro h
  have := congrArg List.length h
  simp at this

/-! ## exec, arm by arm -/

@[simp] theorem exec_readRegs (reg count : Word) (s : State) :
    exec (.readRegs reg count) s = execReadRegs reg count s := rfl

@[simp] theorem exec_writeReg (reg value : Word) (s : State) :
    exec (.writeReg reg value) s = execWriteReg reg value s := rfl

@[simp] theorem exec_setAddr (newAddr ignoredB : Word) (s : State) :
    exec (.setAddr newAddr ignoredB) s = execSetAddr newAddr ignoredB s := rfl

@[simp] theorem exec_getAddr (ignoredA ignoredB : Word) (s : State) :
    exec (.getAddr ignoredA ignoredB) s = execGetAddr ignoredA ignoredB s := rfl

@[simp] theorem exec_crcAppend (n ignoredB : Word) (s : State) :
    exec (.crcAppend n ignoredB) s = execCrcAppend n ignoredB s := rfl

@[simp] theorem exec_crcCheck (n ignoredB : Word) (s : State) :
    exec (.crcCheck n ignoredB) s = execCrcCheck n ignoredB s := rfl

@[simp] theorem exec_illegalOp0 (a b : Word) (s : State) :
    exec (.illegalOp0 a b) s = execIllegalOp0 a b s := rfl

@[simp] theorem exec_illegalOp7 (a b : Word) (s : State) :
    exec (.illegalOp7 a b) s = execIllegalOp7 a b s := rfl

@[simp] theorem exec_illegalOp8 (a b : Word) (s : State) :
    exec (.illegalOp8 a b) s = execIllegalOp8 a b s := rfl

@[simp] theorem exec_illegalOp9 (a b : Word) (s : State) :
    exec (.illegalOp9 a b) s = execIllegalOp9 a b s := rfl

@[simp] theorem exec_illegalOpA (a b : Word) (s : State) :
    exec (.illegalOpA a b) s = execIllegalOpA a b s := rfl

@[simp] theorem exec_illegalOpB (a b : Word) (s : State) :
    exec (.illegalOpB a b) s = execIllegalOpB a b s := rfl

@[simp] theorem exec_illegalOpC (a b : Word) (s : State) :
    exec (.illegalOpC a b) s = execIllegalOpC a b s := rfl

@[simp] theorem exec_illegalOpD (a b : Word) (s : State) :
    exec (.illegalOpD a b) s = execIllegalOpD a b s := rfl

@[simp] theorem exec_illegalOpE (a b : Word) (s : State) :
    exec (.illegalOpE a b) s = execIllegalOpE a b s := rfl

@[simp] theorem exec_illegalOpF (a b : Word) (s : State) :
    exec (.illegalOpF a b) s = execIllegalOpF a b s := rfl

@[simp] theorem exec_illegalRsv (rsv op : BitVec 4) (a b : Word) (s : State) :
    exec (.illegalRsv rsv op a b) s = execIllegalRsv rsv op a b s := rfl

@[simp] theorem exec_frameReadReq (dev : Byte) (reg count : Word) (s : State) :
    exec (.frameReadReq dev reg count) s = execFrameReadReq dev reg count s := rfl

@[simp] theorem exec_frameWriteReq (dev : Byte) (reg value : Word) (s : State) :
    exec (.frameWriteReq dev reg value) s = execFrameWriteReq dev reg value s := rfl

@[simp] theorem exec_frameReadResp (dev : Byte) (hdrRest payload : Frame) (s : State) :
    exec (.frameReadResp dev hdrRest payload) s = execFrameReadResp dev hdrRest payload s := rfl

@[simp] theorem exec_frameWriteEcho (dev : Byte) (reg value : Word) (s : State) :
    exec (.frameWriteEcho dev reg value) s = execFrameWriteEcho dev reg value s := rfl

@[simp] theorem exec_frameException (kind : Kind) (dev code : Byte) (rest : Frame) (s : State) :
    exec (.frameException kind dev code rest) s = execFrameException kind dev code rest s := rfl

/-! ## exec -/

/-- The next states an instruction can give. -/
inductive ExecEffect (s : State) : State → Prop
  /-- READ_REGS, WRITE_REG. -/
  | start (hf : s.fsm = .idle) (kind : Kind) (a b : Word) :
    ExecEffect s (startTransaction kind (functionCode s.cfg kind) a b (clearStatus s))
  /-- SET_ADDR. -/
  | setAddr (hf : s.fsm = .idle) (a : Word) : ExecEffect s (setAddress a (clearStatus s))
  /-- GET_ADDR. -/
  | getAddr (hf : s.fsm = .idle) : ExecEffect s (complete .ok (zext16 s.addr) 0 (clearStatus s))
  /-- A command that fails with no other effect. -/
  | error (hf : s.fsm = .idle) (e : ErrCode) (he : e = .illegalCmd ∨ e = .tooLarge ∨ e = .short) :
    ExecEffect s (raiseError e 0 (clearStatus s))
  /-- CRC_APPEND. -/
  | append (hf : s.fsm = .idle) (n : Nat) (d : Frame) (hn : n + 2 ≤ s.cfg.maxFrame)
    (hd : s.buf.readRange 0 n = some d) : ExecEffect s (appendCrc n d (clearStatus s))
  /-- CRC_CHECK. -/
  | check (hf : s.fsm = .idle) (n : Nat) (g : Frame) (hn : n ≤ s.cfg.maxFrame) (h2 : 2 ≤ n)
    (hg : s.buf.readRange 0 n = some g) : ExecEffect s (checkCrc n g (clearStatus s))
  /-- A request frame has been sent. -/
  | sent (hf : s.fsm = .send) : ExecEffect s (txDone .ok s)
  /-- A response frame has been received. -/
  | received (hf : s.fsm = .recv) (f : Frame) (hne : f ≠ []) : ExecEffect s (receiveFrame f s)

theorem illegalCommand_next {s t : State} (h : illegalCommand s = .next t) : ExecEffect s t := by
  obtain ⟨_, hf, h⟩ := acceptCommand_next.1 h
  cases h
  exact .error hf _ (.inl rfl)

theorem received_effect {f : Frame} (hne : f ≠ []) {s t : State} (h : Machine.received f s = .next t) :
    ExecEffect s t := by
  obtain ⟨_, hf, rfl⟩ := received_next.1 h
  rw [rxDone_frame hne]
  exact .received hf f hne

theorem transmitted_effect {f : Frame} {s t : State} (h : transmitted f s = .next t) : ExecEffect s t := by
  obtain ⟨_, hf, _, rfl⟩ := transmitted_next.1 h
  exact .sent hf

/-- Everything an instruction can do when it answers a next state. -/
theorem exec_effect {i : Instr} {s t : State} (h : exec i s = .next t) : ExecEffect s t := by
  cases i with
  | readRegs reg count =>
    change execReadRegs reg count s = _ at h
    obtain ⟨_, hf, h⟩ := acceptCommand_next.1 h
    cases h
    exact .start hf .read reg count
  | writeReg reg value =>
    change execWriteReg reg value s = _ at h
    obtain ⟨_, hf, h⟩ := acceptCommand_next.1 h
    cases h
    exact .start hf .write reg value
  | setAddr a b =>
    change execSetAddr a b s = _ at h
    obtain ⟨_, hf, h⟩ := acceptCommand_next.1 h
    cases h
    exact .setAddr hf a
  | getAddr a b =>
    change execGetAddr a b s = _ at h
    obtain ⟨_, hf, h⟩ := acceptCommand_next.1 h
    cases h
    exact .getAddr hf
  | crcAppend n b =>
    change execCrcAppend n b s = _ at h
    obtain ⟨_, hf, h⟩ := acceptCommand_next.1 h
    rcases crcAppendEffect_cases (lengthOf n) (clearStatus s) with ⟨_, e⟩ | ⟨_, _, e⟩ | ⟨hn, d, hd, e⟩ <;> rw [e] at h <;>
      cases h
    · exact .error hf _ (.inr (.inl rfl))
    · exact .append hf _ d hn hd
  | crcCheck n b =>
    change execCrcCheck n b s = _ at h
    obtain ⟨_, hf, h⟩ := acceptCommand_next.1 h
    rcases crcCheckEffect_cases (lengthOf n) (clearStatus s) with
      ⟨_, e⟩ | ⟨_, _, e⟩ | ⟨_, _, _, e⟩ | ⟨hn, h2, g, hg, e⟩ <;> rw [e] at h <;> cases h
    · exact .error hf _ (.inr (.inl rfl))
    · exact .error hf _ (.inr (.inr rfl))
    · exact .check hf _ g hn h2 hg
  | illegalOp0 a b => exact illegalCommand_next h
  | illegalOp7 a b => exact illegalCommand_next h
  | illegalOp8 a b => exact illegalCommand_next h
  | illegalOp9 a b => exact illegalCommand_next h
  | illegalOpA a b => exact illegalCommand_next h
  | illegalOpB a b => exact illegalCommand_next h
  | illegalOpC a b => exact illegalCommand_next h
  | illegalOpD a b => exact illegalCommand_next h
  | illegalOpE a b => exact illegalCommand_next h
  | illegalOpF a b => exact illegalCommand_next h
  | illegalRsv rsv op a b => exact illegalCommand_next h
  | frameReadReq dev reg count => exact transmitted_effect h
  | frameWriteReq dev reg value => exact transmitted_effect h
  | frameReadResp dev hdrRest payload => exact received_effect (withCrc_ne_nil _) h
  | frameWriteEcho dev reg value => exact received_effect (withCrc_ne_nil _) h
  | frameException kind dev code rest => exact received_effect (withCrc_ne_nil _) h

/-- An instruction runs only under a configuration that satisfies 00_scope.md R6. -/
theorem exec_configOk {i : Instr} {s t : State} (h : exec i s = .next t) : configOk s.cfg = true := by
  cases i with
  | readRegs a b => exact (acceptCommand_next.1 (show execReadRegs a b s = _ from h)).1
  | writeReg a b => exact (acceptCommand_next.1 (show execWriteReg a b s = _ from h)).1
  | setAddr a b => exact (acceptCommand_next.1 (show execSetAddr a b s = _ from h)).1
  | getAddr a b => exact (acceptCommand_next.1 (show execGetAddr a b s = _ from h)).1
  | crcAppend a b => exact (acceptCommand_next.1 (show execCrcAppend a b s = _ from h)).1
  | crcCheck a b => exact (acceptCommand_next.1 (show execCrcCheck a b s = _ from h)).1
  | frameReadReq dev reg count => exact (transmitted_next.1 h).1
  | frameWriteReq dev reg value => exact (transmitted_next.1 h).1
  | frameReadResp dev hdrRest payload => exact (received_next.1 h).1
  | frameWriteEcho dev reg value => exact (received_next.1 h).1
  | frameException kind dev code rest => exact (received_next.1 h).1
  | illegalOp0 a b => exact (acceptCommand_next.1 (show illegalCommand s = _ from h)).1
  | illegalOp7 a b => exact (acceptCommand_next.1 (show illegalCommand s = _ from h)).1
  | illegalOp8 a b => exact (acceptCommand_next.1 (show illegalCommand s = _ from h)).1
  | illegalOp9 a b => exact (acceptCommand_next.1 (show illegalCommand s = _ from h)).1
  | illegalOpA a b => exact (acceptCommand_next.1 (show illegalCommand s = _ from h)).1
  | illegalOpB a b => exact (acceptCommand_next.1 (show illegalCommand s = _ from h)).1
  | illegalOpC a b => exact (acceptCommand_next.1 (show illegalCommand s = _ from h)).1
  | illegalOpD a b => exact (acceptCommand_next.1 (show illegalCommand s = _ from h)).1
  | illegalOpE a b => exact (acceptCommand_next.1 (show illegalCommand s = _ from h)).1
  | illegalOpF a b => exact (acceptCommand_next.1 (show illegalCommand s = _ from h)).1
  | illegalRsv rsv op a b => exact (acceptCommand_next.1 (show illegalCommand s = _ from h)).1

end Sys2Proof.Laws
end

