-- ==== Sys2Proof/Laws/PerInstr.lean ====
section
/-! SUPPORT. Laws/PerInstr.lean: a fact about the encoding of every instruction, proved constructor by constructor. -/

open Sys2Proof Sys2Proof.Machine

/-- The form of an instruction's encoding: a command word whose four fields read back what was put in them
(30_encoding.md R70); a request of 8 bytes (R75); a response whose length is one the validator looks past (41_framing.md
R130 checks 1 and 2). -/
def Sys2Proof.Laws.EncodedForm.Statement (i : Instr) : Prop :=
  ∀ c : Config, configOk c = true → i.wellFormed c = true →
    match encode c i with
    | .command w => ∃ rsv op a b,
      w = encodeCommand rsv op a b ∧ cmdRsv w = rsv ∧ cmdOp w = op ∧ cmdA w = a ∧ cmdB w = b ∧
        decodeCommand w = i
    | .request f => f.length = requestLen ∧ f = withCrc (f.take 6)
    | .response kind f => minResp ≤ f.length ∧ f.length ≤ responseCap c kind ∧ f = withCrc (f.take (f.length - 2))

/-- A word whose operation code is legal or illegal by itself reads back. -/
theorem Sys2Proof.Laws.encodedForm_command {i : Instr} {rsv op : BitVec 4} {a b : Word}
    (he : ∀ c, encode c i = .command (encodeCommand rsv op a b))
    (hd : ∀ c, i.wellFormed c = true → decodeCommand (encodeCommand rsv op a b) = i) :
    Sys2Proof.Laws.EncodedForm.Statement i := by
  intro c _ hw
  rw [he c]
  exact ⟨rsv, op, a, b, rfl, by simp, by simp, by simp, by simp, hd c hw⟩

/-- A word with rsv = 0 is decoded by its operation code. -/
theorem Sys2Proof.Laws.decodeCommand_rsv0 (op : BitVec 4) (a b : Word) :
    decodeCommand (encodeCommand 0x0 op a b) = decodeOp op a b := by
  simp [decodeCommand]

/-- A word with rsv ≠ 0 is illegal whatever its operation code. -/
theorem Sys2Proof.Laws.decodeCommand_rsv {rsv : BitVec 4} (h : rsv ≠ 0) (op : BitVec 4) (a b : Word) :
    decodeCommand (encodeCommand rsv op a b) = .illegalRsv rsv op a b := by
  have h : ¬ rsv = 0#4 := h
  simp [decodeCommand, h]

/-- The bytes before the CRC of a frame with its CRC. -/
theorem Sys2Proof.Laws.withCrc_take_back {f : Frame} {n : Nat} (h : f.length = n) :
    withCrc f = withCrc ((withCrc f).take n) := by
  subst h; simp

theorem Sys2Proof.Laws.EncodedForm.readRegs : ∀ a b, Statement (.readRegs a b) := fun a b =>
  encodedForm_command (fun _ => rfl) (fun _ _ => decodeCommand_rsv0 0x1 a b)

theorem Sys2Proof.Laws.EncodedForm.writeReg : ∀ a b, Statement (.writeReg a b) := fun a b =>
  encodedForm_command (fun _ => rfl) (fun _ _ => decodeCommand_rsv0 0x2 a b)

theorem Sys2Proof.Laws.EncodedForm.setAddr : ∀ a b, Statement (.setAddr a b) := fun a b =>
  encodedForm_command (fun _ => rfl) (fun _ _ => decodeCommand_rsv0 0x3 a b)

theorem Sys2Proof.Laws.EncodedForm.getAddr : ∀ a b, Statement (.getAddr a b) := fun a b =>
  encodedForm_command (fun _ => rfl) (fun _ _ => decodeCommand_rsv0 0x4 a b)

theorem Sys2Proof.Laws.EncodedForm.crcAppend : ∀ a b, Statement (.crcAppend a b) := fun a b =>
  encodedForm_command (fun _ => rfl) (fun _ _ => decodeCommand_rsv0 0x5 a b)

theorem Sys2Proof.Laws.EncodedForm.crcCheck : ∀ a b, Statement (.crcCheck a b) := fun a b =>
  encodedForm_command (fun _ => rfl) (fun _ _ => decodeCommand_rsv0 0x6 a b)

theorem Sys2Proof.Laws.EncodedForm.illegalOp0 : ∀ a b, Statement (.illegalOp0 a b) := fun a b =>
  encodedForm_command (fun _ => rfl) (fun _ _ => decodeCommand_rsv0 0x0 a b)

theorem Sys2Proof.Laws.EncodedForm.illegalOp7 : ∀ a b, Statement (.illegalOp7 a b) := fun a b =>
  encodedForm_command (fun _ => rfl) (fun _ _ => decodeCommand_rsv0 0x7 a b)

theorem Sys2Proof.Laws.EncodedForm.illegalOp8 : ∀ a b, Statement (.illegalOp8 a b) := fun a b =>
  encodedForm_command (fun _ => rfl) (fun _ _ => decodeCommand_rsv0 0x8 a b)

theorem Sys2Proof.Laws.EncodedForm.illegalOp9 : ∀ a b, Statement (.illegalOp9 a b) := fun a b =>
  encodedForm_command (fun _ => rfl) (fun _ _ => decodeCommand_rsv0 0x9 a b)

theorem Sys2Proof.Laws.EncodedForm.illegalOpA : ∀ a b, Statement (.illegalOpA a b) := fun a b =>
  encodedForm_command (fun _ => rfl) (fun _ _ => decodeCommand_rsv0 0xA a b)

theorem Sys2Proof.Laws.EncodedForm.illegalOpB : ∀ a b, Statement (.illegalOpB a b) := fun a b =>
  encodedForm_command (fun _ => rfl) (fun _ _ => decodeCommand_rsv0 0xB a b)

theorem Sys2Proof.Laws.EncodedForm.illegalOpC : ∀ a b, Statement (.illegalOpC a b) := fun a b =>
  encodedForm_command (fun _ => rfl) (fun _ _ => decodeCommand_rsv0 0xC a b)

theorem Sys2Proof.Laws.EncodedForm.illegalOpD : ∀ a b, Statement (.illegalOpD a b) := fun a b =>
  encodedForm_command (fun _ => rfl) (fun _ _ => decodeCommand_rsv0 0xD a b)

theorem Sys2Proof.Laws.EncodedForm.illegalOpE : ∀ a b, Statement (.illegalOpE a b) := fun a b =>
  encodedForm_command (fun _ => rfl) (fun _ _ => decodeCommand_rsv0 0xE a b)

theorem Sys2Proof.Laws.EncodedForm.illegalOpF : ∀ a b, Statement (.illegalOpF a b) := fun a b =>
  encodedForm_command (fun _ => rfl) (fun _ _ => decodeCommand_rsv0 0xF a b)

theorem Sys2Proof.Laws.EncodedForm.illegalRsv : ∀ rsv op a b, Statement (.illegalRsv rsv op a b) :=
  fun _ op a b => encodedForm_command (fun _ => rfl) (fun _ h => decodeCommand_rsv (of_decide_eq_true h) op a b)

theorem Sys2Proof.Laws.EncodedForm.frameReadReq : ∀ dev reg count, Statement (.frameReadReq dev reg count) :=
  fun _ _ _ _ _ _ => ⟨rfl, withCrc_take_back rfl⟩

theorem Sys2Proof.Laws.EncodedForm.frameWriteReq : ∀ dev reg value, Statement (.frameWriteReq dev reg value) :=
  fun _ _ _ _ _ _ => ⟨rfl, withCrc_take_back rfl⟩

theorem Sys2Proof.Laws.EncodedForm.frameReadResp :
    ∀ dev hdrRest payload, Statement (.frameReadResp dev hdrRest payload) := by
  intro dev hdrRest payload c hc hw
  simp only [Instr.wellFormed, Bool.and_eq_true, decide_eq_true_eq] at hw
  simp only [configOk, Bool.and_eq_true, decide_eq_true_eq] at hc
  refine ⟨?_, ?_, withCrc_take_back ?_⟩
  · simp only [minResp, readResponseFrame_length]; omega
  · simp only [responseCap, readResponseFrame_length]; omega
  · simp [readResponseFrame]

theorem Sys2Proof.Laws.EncodedForm.frameWriteEcho : ∀ dev reg value, Statement (.frameWriteEcho dev reg value) :=
  fun _ _ _ _ _ _ => ⟨Nat.le.intro (k := 3) rfl, Nat.le_refl 8, withCrc_take_back rfl⟩

theorem Sys2Proof.Laws.EncodedForm.frameException :
    ∀ kind dev code rest, Statement (.frameException kind dev code rest) := by
  intro kind dev code rest c hc hw
  simp only [Instr.wellFormed, decide_eq_true_eq] at hw
  refine ⟨?_, ?_, withCrc_take_back ?_⟩
  · simp [minResp]
  · simpa using hw
  · simp [exceptionFrame]
end

