-- ==== Sys2Proof/Laws/Step.lean ====
section
/-! SUPPORT. Laws/Step.lean: what one step does with its input, and runs of several steps. -/

namespace Sys2Proof.Laws

open Machine

/-- A step whose next input is an event fires that event. -/
theorem step_event {s : State} {up : Bool} {e : Event} {rest : List Input} (hc : configOk s.cfg = true)
    (h : s.inputs = .event up e :: rest) :
    step s = fireEvent e { s with linkUp := up, inputs := rest, draws := s.draws + 1 } := by
  show runNext s = _
  rw [runNext, if_pos hc, h]
  rfl

/-- A step whose next input is a port sample applies that sample. -/
theorem step_ports {s : State} {p : PortSample} {rest : List Input} (hc : configOk s.cfg = true)
    (h : s.inputs = .ports p :: rest) :
    step s = portStep p { s with inputs := rest, draws := s.draws + 1 } := by
  show runNext s = _
  rw [runNext, if_pos hc, h]
  rfl

/-- With no input there is no step. -/
theorem step_noInput {s : State} (hc : configOk s.cfg = true) (h : s.inputs = []) : step s = .fault .noInput := by
  show runNext s = _
  rw [runNext, if_pos hc, h]

/-- A run of no step. -/
theorem run_zero (s : State) : Host.Core.run Sys2Proof.core 0 s = .next s := rfl

/-- A run whose first step answers a next state goes on from it. -/
theorem run_succ {k : Nat} {s t : State} (h : step s = .next t) :
    Host.Core.run Sys2Proof.core (k + 1) s = Host.Core.run Sys2Proof.core k t := by
  have run_of : ∀ (M : Host.Core) (s t : M.State), M.step s = .next t → M.run (k + 1) s = M.run k t := by
    intro M s t h
    simp only [Host.Core.run, h]
  exact run_of Sys2Proof.core s t h

/-- The constraints of a configuration, one by one (00_scope.md R6). -/
theorem configOk_iff (c : Config) :
    configOk c = true ↔
      c.addrMin ≤ c.addrReset ∧ c.addrReset ≤ c.addrMax ∧ c.addrMax ≤ 255 ∧ 8 ≤ c.maxFrame ∧ c.maxFrame ≤ 65535 ∧
      c.fcRead ≠ c.fcWrite ∧ c.fcRead &&& c.excFlag = 0 ∧ c.fcWrite &&& c.excFlag = 0 ∧ c.excFlag ≠ 0 ∧
      3 ≤ c.readHdrLen ∧ c.readHdrLen + 2 ≤ c.maxFrame := by
  simp [configOk, and_assoc]

/-- The invariant does not look at the environment's part of the state. -/
theorem framerInv_environment {s : State} (h : FramerInv s) (up : Bool) (xs : List Input) (n : Nat) :
    FramerInv { s with linkUp := up, inputs := xs, draws := n } :=
  ⟨h.1, h.2, h.3, h.4, h.5, h.6, h.7, h.8, h.9, h.10, h.11, h.12, h.13, h.14, h.15, h.16, h.17⟩

end Sys2Proof.Laws
end

