-- ==== Sys2Proof/Tests/Slice0.lean ====
section
/-! SUPPORT. Tests/Slice0.lean: the expected values are those of spec/ (95_test_vectors.md, 30_encoding.md R87), none the
model's own; and, for every obligation with hypotheses, a witness that meets them. -/

namespace Sys2Proof.Tests

open Sys2Proof Machine Laws

set_option Elab.async false

/-! ## Helpers -/

/-- The state a step answers, if it answers one. -/
def nextOf : StepResult → Option State
  | .next t => some t
  | _ => none

/-- STATUS, RESULT, RX_COUNT, CRC and ADDR after a step. -/
def regsOf (r : StepResult) : Option (Word × Word × Word × Word × Byte) :=
  (nextOf r).map fun t => (t.status, t.result, t.rxCount, t.crc, t.addr)

/-- The first `n` cells of BUF after a step. -/
def bufOf (n : Nat) (r : StepResult) : Option Frame := (nextOf r).bind fun t => t.buf.readRange 0 n

/-- A step that answers a state with a property answers a state. -/
theorem answers {r : StepResult} {p : State → Bool} (h : (nextOf r).any p = true) : ∃ t, r = .next t ∧ p t = true := by
  cases r with
  | next t => exact ⟨t, rfl, by simpa [nextOf] using h⟩
  | fault e => simp [nextOf] at h
  | refused e => simp [nextOf] at h

/-- After reset, with the link up. -/
def idle0 : State := { State.reset with linkUp := true }

/-- MAX_FRAME = 8, every other parameter at its default (95_test_vectors.md P5). -/
def config8 : Config := { defaultConfig with maxFrame := 8 }

/-- After reset under `config8`, with the link up. -/
def idle8 : State := { State.resetWith config8 with linkUp := true }

/-- BUF with the bytes of `f` in its first cells. -/
def loaded (s : State) (f : Frame) : State := { s with buf := s.buf.writeFrom 0 f }

/-- The data of V-APP-1. -/
def data6 : Frame := [0x01, 0x03, 0x00, 0x00, 0x00, 0x01]

/-- V-ENC-1: the request of READ_REGS 0x0000, 1. -/
def readReq : Request := Request.mk .read 0x01 0x03 0x0000 0x0001

/-- V-ENC-5: the request of WRITE_REG 0x010E, 1. -/
def writeReq : Request := Request.mk .write 0x01 0x06 0x010E 0x0001

/-- V-ENC-1's frame. -/
def readFrame : Frame := [0x01, 0x03, 0x00, 0x00, 0x00, 0x01, 0x0A, 0x84]

/-- V-ENC-5's frame. -/
def writeFrame : Frame := [0x01, 0x06, 0x01, 0x0E, 0x00, 0x01, 0x35, 0x28]

/-- A transaction for a request in a state of the automaton. -/
def busyIn (st : Fsm) (q : Request) (f : Frame) : State := { idle0 with fsm := st, req := q, txbuf := f }

/-- A state with its next inputs. -/
def given (s : State) (xs : List Input) : State := { s with inputs := xs }

/-- A clock step of the ports on which nothing is driven but link_up. -/
def quiet : PortSample where
  rst := false
  cmdValid := false
  cmdWord := 0
  bufWe := false
  bufWaddr := 0
  bufWdata := 0
  bufRaddr := 0
  linkUp := true
  flushAck := false
  txReady := false
  txStatus := 0
  rxValid := false
  rxData := 0
  rxEof := false
  rxStatus := 0
  ifdElapsed := false

/-! ## Well-formed terms: one ill-formed term for each check -/

theorem test_wf_rsv_zero : Instr.wellFormed defaultConfig (.illegalRsv 0 1 0 0) = false := by decide

theorem test_wf_read_header_short : Instr.wellFormed defaultConfig (.frameReadResp 1 [] [0x12]) = false := by decide

theorem test_wf_read_too_long : Instr.wellFormed config8 (.frameReadResp 1 [0x02] [1, 2, 3, 4]) = false := by decide

theorem test_wf_exception_too_long_for_write :
    Instr.wellFormed defaultConfig (.frameException .write 1 3 [0, 0, 0, 0]) = false := by decide

theorem test_wf_exception_too_long_for_read :
    Instr.wellFormed config8 (.frameException .read 1 3 [0, 0, 0, 0]) = false := by decide

/-! ## Decoding: words written out from 30_encoding.md R70 to R73 and the frames of 95_test_vectors.md -/

-- B = 0000000000000010, A = 0000001100000000, rsv = 0000, op = 0001 (R87).
theorem test_decode_read_regs :
    decodeCommand 0b0000000000000010000000110000000000000001 = .readRegs 0x0300 2 := by decide

-- B = 0011000000111001, A = 0000000100010000, rsv = 0000, op = 0010 (R87).
theorem test_decode_write_reg :
    decodeCommand 0b0011000000111001000000010001000000000010 = .writeReg 0x0110 12345 := by decide

theorem test_decode_set_addr :
    decodeCommand 0b1011111011101111000000000000011100000011 = .setAddr 7 0xBEEF := by decide

theorem test_decode_get_addr :
    decodeCommand 0b0000000000000000000100100011010000000100 = .getAddr 0x1234 0 := by decide

theorem test_decode_crc_append :
    decodeCommand 0b0000000000000000000000001111111000000101 = .crcAppend 254 0 := by decide

theorem test_decode_crc_check :
    decodeCommand 0b0000000000000000000000010000000000000110 = .crcCheck 256 0 := by decide

-- The ten illegal operation codes, each with A = 0x0100 and B = 0x0002.
theorem test_decode_illegal_low :
    [0x0002010000, 0x0002010007, 0x0002010008, 0x0002010009, 0x000201000A].map decodeCommand =
      [.illegalOp0 0x100 2, .illegalOp7 0x100 2, .illegalOp8 0x100 2, .illegalOp9 0x100 2, .illegalOpA 0x100 2] := by
  decide

theorem test_decode_illegal_high :
    [0x000201000B, 0x000201000C, 0x000201000D, 0x000201000E, 0x000201000F].map decodeCommand =
      [.illegalOpB 0x100 2, .illegalOpC 0x100 2, .illegalOpD 0x100 2, .illegalOpE 0x100 2, .illegalOpF 0x100 2] := by
  decide

-- V-ILL-7: rsv = 1111 is looked at before op.
theorem test_decode_illegal_rsv : decodeCommand 0x00000000F3 = .illegalRsv 0xF 0x3 0 0 := by decide

theorem test_decode_read_request :
    decode defaultConfig (.request readFrame) = .ok (.frameReadReq 0x01 0x0000 0x0001) := by decide +kernel

-- V-ENC-7.
theorem test_decode_write_request :
    decode defaultConfig (.request [0x01, 0x06, 0x01, 0x10, 0x30, 0x39, 0xE1, 0x5D]) =
      .ok (.frameWriteReq 0x01 0x0110 12345) := by decide +kernel

-- V-VR-4.
theorem test_decode_read_response :
    decode defaultConfig (.response .read [0x01, 0x03, 0x06, 0x00, 0x30, 0x39, 0x00, 0x07, 0xD0, 0x41, 0x6E]) =
      .ok (.frameReadResp 0x01 [0x06] [0x00, 0x30, 0x39, 0x00, 0x07, 0xD0]) := by decide +kernel

-- V-VW-14.
theorem test_decode_write_echo :
    decode defaultConfig (.response .write [0x01, 0x06, 0x01, 0x0E, 0x00, 0x00, 0xF5, 0xE9]) =
      .ok (.frameWriteEcho 0x01 0x010E 0x0000) := by decide +kernel

-- V-VW-9 and V-VR-15.
theorem test_decode_exception :
    decode defaultConfig (.response .write [0x01, 0x86, 0x03, 0x00, 0xC1, 0xE0]) =
      .ok (.frameException .write 0x01 0x03 [0x00]) ∧
    decode defaultConfig (.response .read [0x01, 0x83, 0x00, 0x30, 0x41]) =
      .ok (.frameException .read 0x01 0x00 []) := by decide +kernel

-- V-VR-11, V-VR-16, V-VW-12, V-VW-2.
theorem test_decode_refuses :
    decode defaultConfig (.response .read [0x01, 0x03, 0x02, 0x12, 0x34, 0xB5, 0x33]) = .error .badCrc ∧
    decode defaultConfig (.response .read [0x01, 0x86, 0x02, 0xA1, 0xC3]) = .error .responseCode ∧
    decode defaultConfig (.response .write [0x01, 0x06, 0x01, 0x0E, 0x8D, 0x61]) = .error .responseShort ∧
    decode defaultConfig (.response .write (writeFrame ++ [0x00])) = .error .responseTooLarge := by decide +kernel

-- R85, R87: the lines of the table of examples.
theorem test_assembler :
    assembleText "READ_REGS 0x0300, 2".toList = some 0x0002030001 ∧
    assembleText "WRITE_REG 0x0110, 12345 ; comment".toList = some 0x3039011002 ∧
    assembleText ".cmd 0x0000000011".toList = some 0x0000000011 ∧
    assembleText "SET_ADDR 65536".toList = none := by decide +kernel

-- The table's numbering: byte 0 of a frame in bits 7..0 (V-ENC-1).
theorem test_table_word :
    decodeTableWord 40 0x0002030001 = some (.readRegs 0x0300 2) ∧
    decodeTableWord 64 0x840A010000000301 = some (.frameReadReq 0x01 0x0000 0x0001) := by decide +kernel

theorem test_table_word_runs :
    regsOf (step (State.reset.withFetchWord 40 0x0000000503)) = some (0x0002, 0x0005, 0, 0, 5) := by decide +kernel

/-! ## CRC: 95_test_vectors.md 2.1 -/

-- V-CRC-4, V-CRC-7, V-CRC-8.
theorem test_crc_values :
    crc16 [0x01] = 0x807E ∧ crc16 [0xDE, 0xAD, 0xBE, 0xEF] = 0xC19B ∧ crc16 data6 = 0x0A84 := by decide +kernel

-- V-CRC-10, V-CRC-11, V-CRC-13, V-CRC-15.
theorem test_crc_ok :
    crcOk readFrame = true ∧ crcOk (data6 ++ [0x84, 0x0A]) = false ∧ crcOk [0xFF] = false ∧
    crcOk [0xFF, 0xFF] = true := by decide +kernel

/-! ## Instructions -/

-- V-TX-1: the acceptance; V-TX-8: link down.
theorem test_read_regs :
    (nextOf (exec (.readRegs 0 1) idle0)).map (fun t => (t.fsm, t.status, t.txbuf)) =
      some (.gapPre, 0x0001, readFrame) := by decide +kernel

theorem test_read_regs_link_down :
    regsOf (exec (.readRegs 0 1) State.reset) = some (0x0012, 0, 0, 0, 1) := by decide +kernel

-- V-TX-2, and ADDR = 5: V-ENC-6.
theorem test_write_reg :
    (nextOf (exec (.writeReg 0x010E 1) { idle0 with addr := 5 })).map (fun t => (t.status, t.txbuf)) =
      some (0x0001, [0x05, 0x06, 0x01, 0x0E, 0x00, 0x01, 0xB1, 0x29]) := by decide +kernel

-- V-ADDR-7, V-ADDR-5.
theorem test_set_addr :
    regsOf (exec (.setAddr 247 0) { idle0 with addr := 5 }) = some (0x0002, 0x00F7, 0, 0, 247) := by decide +kernel

theorem test_set_addr_not_truncated :
    regsOf (exec (.setAddr 0x0101 0) { idle0 with addr := 5 }) = some (0x00B2, 0, 0, 0, 5) := by decide +kernel

-- V-ADDR-11.
theorem test_get_addr :
    regsOf (exec (.getAddr 0x1234 0) { idle0 with addr := 7 }) = some (0x0002, 0x0007, 0, 0, 7) := by decide +kernel

-- V-APP-18, V-APP-10.
theorem test_crc_append :
    bufOf 8 (exec (.crcAppend 6 0) (loaded idle8 data6)) = some readFrame ∧
    regsOf (exec (.crcAppend 6 0) (loaded idle8 data6)) = some (0x0002, 0x0008, 0, 0x0A84, 1) := by decide +kernel

theorem test_crc_append_no_wrap :
    regsOf (exec (.crcAppend 0xFFFF 0) (loaded idle0 data6)) = some (0x0082, 0, 0, 0, 1) := by decide +kernel

-- V-APP-2, V-APP-4.
theorem test_crc_check :
    regsOf (exec (.crcCheck 8 0) (loaded idle0 readFrame)) = some (0x0002, 0x0006, 0, 0x0A84, 1) := by decide +kernel

theorem test_crc_check_mismatch :
    regsOf (exec (.crcCheck 8 0) (loaded idle0 (data6 ++ [0x0A, 0x85]))) = some (0x0092, 0, 0, 0x0A84, 1) := by
  decide +kernel

-- V-ILL-1 to V-ILL-6.
theorem test_illegal :
    [Instr.illegalOp0 0 0, .illegalOp7 0 0, .illegalOp8 0 0, .illegalOp9 0 0, .illegalOpA 0 0, .illegalOpB 0 0,
      .illegalOpC 0 0, .illegalOpD 0 0, .illegalOpE 0 0, .illegalOpF 0 0, .illegalRsv 1 1 0 1].map
      (fun i => regsOf (exec i idle0)) = List.replicate 11 (some (0x00C2, 0, 0, 0, 1)) := by decide +kernel

-- V-TX-1, V-TX-2: the request is sent.
theorem test_frame_read_req :
    (nextOf (exec (.frameReadReq 0x01 0 1) (busyIn .send readReq readFrame))).map (fun t => (t.fsm, t.txRecent)) =
      some (.gapPost, true) := by decide +kernel

theorem test_frame_write_req :
    (nextOf (exec (.frameWriteReq 0x01 0x010E 1) (busyIn .send writeReq writeFrame))).map
      (fun t => (t.fsm, t.txRecent)) = some (.gapPost, true) := by decide +kernel

-- V-TX-1, V-TX-16.
theorem test_frame_read_resp :
    regsOf (exec (.frameReadResp 0x01 [0x02] [0x12, 0x34]) (busyIn .recv readReq readFrame)) =
      some (0x0002, 0x0002, 7, 0, 1) := by decide +kernel

theorem test_frame_read_resp_stored :
    bufOf 7 (exec (.frameReadResp 0x01 [0x02] [0x12, 0x34]) (busyIn .recv readReq readFrame)) =
      some [0x01, 0x03, 0x02, 0x12, 0x34, 0x33, 0xB5] := by decide +kernel

-- V-TX-2, V-TX-13.
theorem test_frame_write_echo :
    regsOf (exec (.frameWriteEcho 0x01 0x010E 1) (busyIn .recv writeReq writeFrame)) =
      some (0x0002, 0x0001, 8, 0, 1) := by decide +kernel

theorem test_frame_write_echo_differs :
    regsOf (exec (.frameWriteEcho 0x01 0x010E 0) (busyIn .recv writeReq writeFrame)) =
      some (0x00A2, 0, 8, 0, 1) := by decide +kernel

-- V-TX-3, V-VR-15 with V-ST-11.
theorem test_frame_exception :
    regsOf (exec (.frameException .write 0x01 0x03 []) (busyIn .recv writeReq writeFrame)) =
      some (0x0372, 0, 5, 0, 1) := by decide +kernel

theorem test_frame_exception_code_zero :
    regsOf (exec (.frameException .read 0x01 0x00 []) (busyIn .recv readReq readFrame)) =
      some (0x0072, 0, 5, 0, 1) := by decide +kernel

/-! ## Events and ports -/

-- V-TX-9 to V-TX-12: frames that are no row of the table.
theorem test_bad_frames :
    [[0x01, 0x03, 0x02, 0x12, 0x34, 0x33, 0xB4], [0x02, 0x03, 0x02, 0x12, 0x34, 0x33, 0xF1],
      [0x01, 0x86, 0x02, 0xA1, 0xC3], [0x01, 0x03, 0x02, 0x12]].map
      (fun f => regsOf (step (given (busyIn .recv readReq readFrame) [.event true (.rxDone (.frame f))]))) =
      [some (0x0092, 0, 7, 0, 1), some (0x0052, 0, 7, 0, 1), some (0x0062, 0, 5, 0, 1), some (0x0042, 0, 4, 0, 1)] := by
  decide +kernel

-- V-TX-15, V-TX-17.
theorem test_too_large :
    regsOf (step (given { busyIn .recv readReq readFrame with cfg := config8 }
      [.event true (.rxDone (.frame [0x01, 0x03, 0x04, 0x01, 0x02, 0x03, 0x04, 0x3C, 0x5B]))])) =
        some (0x0082, 0, 8, 0, 1) ∧
    regsOf (step (given (busyIn .recv writeReq writeFrame) [.event true (.rxDone (.frame (writeFrame ++ [0x00])))])) =
        some (0x0082, 0, 9, 0, 1) := by decide +kernel

-- V-TX-4 to V-TX-7.
theorem test_link_errors :
    [step (given (busyIn .recv readReq readFrame) [.event true (.rxDone .timedOut)]),
      step (given (busyIn .recv writeReq writeFrame) [.event true (.rxDone .ioError)]),
      step (given (busyIn .send writeReq writeFrame) [.event true (.txDone .timedOut)]),
      step (given (busyIn .send writeReq writeFrame) [.event true (.txDone .notConnected)])].map regsOf =
      [some (0x0022, 0, 0, 0, 1), some (0x0032, 0, 0, 0, 1), some (0x0022, 0, 0, 0, 1), some (0x0012, 0, 0, 0, 1)] := by
  decide +kernel

-- V-RST-2.
theorem test_reset_drops_the_transaction :
    regsOf (step (given { busyIn .send writeReq writeFrame with addr := 5 } [.event true .reset])) =
      some (0x0000, 0, 0, 0, 1) := by decide +kernel

-- V-APP-17, V-RST-3.
theorem test_unwritten_cell :
    exec (.crcCheck 10 0) (loaded idle0 data6) = .fault (.unwrittenCell .crcCheck) ∧
    exec (.crcCheck 2 0) State.reset = .fault (.unwrittenCell .crcCheck) := ⟨by rfl, by rfl⟩

-- R52: a buffer write and a command on the same clock step: the command sees the byte.
theorem test_write_and_command_on_one_step :
    regsOf (portStep
      { quiet with bufWe := true, bufWaddr := 5, bufWdata := 1, cmdValid := true, cmdWord := 0x0000000605 }
      (loaded idle0 [0x01, 0x03, 0x00, 0x00, 0x00])) = some (0x0002, 0x0008, 0, 0x0A84, 1) := by decide +kernel

-- V-ST-1.
theorem test_reset_status : State.reset.status = 0x0000 := by decide

/-! ## Witnesses: for every obligation with hypotheses, values that meet them, at the boundaries of each clause -/

theorem witness_CrcSingleByteCorruptionDetected :
    (0 < data6.length + 2 ∧ (0x02 : Byte) ≠ (withCrc data6).getD 0 0) ∧
    (7 < data6.length + 2 ∧ (0x85 : Byte) ≠ (withCrc data6).getD 7 0) := by decide +kernel

theorem witness_LowByteFirstCrcRejected :
    hiByte (crc16 data6) ≠ loByte (crc16 data6) ∧ 5 ≤ data6.length + 2 ∧
    data6.length + 2 ≤ responseCap defaultConfig writeReq.kind ∧
    hiByte (crc16 [0x01, 0x83, 0x02]) ≠ loByte (crc16 [0x01, 0x83, 0x02]) := by decide +kernel

theorem witness_RequestEncoderLosesNoBit :
    (encodeReq { readReq with kind := .write }).take 6 = (encodeReq readReq).take 6 := by decide +kernel

-- V-VW-2 (9 bytes), V-VR-7 (4), V-VR-10, V-VR-12, V-VR-14, V-VR-16.
theorem witness_ValidatorOrder :
    8 < (writeFrame ++ [0x00]).length ∧ ([0x01, 0x03, 0x21, 0x40] : Frame).length < 5 ∧
    crcOk [0x01, 0x03, 0x02, 0x12, 0x34, 0x33, 0xB4] = false ∧
    (crcOk [0x02, 0x03, 0x02, 0x12, 0x34, 0x33, 0xF1] = true ∧ (0x02 : Byte) ≠ readReq.addr) ∧
    (crcOk [0x01, 0x83, 0x02, 0xF1, 0xC0] = true ∧ (0x83 : Byte) = readReq.fc ||| defaultConfig.excFlag) ∧
    (crcOk [0x01, 0x86, 0x02, 0xA1, 0xC3] = true ∧ (0x86 : Byte) ≠ readReq.fc ||| defaultConfig.excFlag ∧
      (0x86 : Byte) ≠ readReq.fc) := by decide +kernel

-- V-VW-12 (6 bytes), V-VW-14, V-VW-1; V-VR-2 (5 bytes), and READ_HDR_LEN = 4 with the same 5 bytes.
theorem witness_ValidatorOrder_last_checks :
    (crcOk [0x01, 0x06, 0x01, 0x0E, 0x8D, 0x61] = true ∧ writeReq.kind = .write ∧ writeReq.fc = 0x06) ∧
    (crcOk [0x01, 0x06, 0x01, 0x0E, 0x00, 0x00, 0xF5, 0xE9] = true ∧
      ([0x01, 0x0E, 0x00, 0x00] : Frame) ≠
        [hiByte writeReq.reg, loByte writeReq.reg, hiByte writeReq.val, loByte writeReq.val]) ∧
    (crcOk writeFrame = true ∧ (writeFrame.drop 2).take 4 =
      [hiByte writeReq.reg, loByte writeReq.reg, hiByte writeReq.val, loByte writeReq.val]) ∧
    (crcOk [0x01, 0x03, 0x00, 0xF0, 0x20] = true ∧ readReq.kind = .read ∧ defaultConfig.readHdrLen + 2 ≤ 5 ∧ 5 < 4 + 2) := by
  decide +kernel

theorem witness_WriteSucceedsExactlyOnTheEcho :
    configOk defaultConfig = true ∧ writeReq.kind = .write ∧ writeReq.fc = defaultConfig.fcWrite := by decide

-- V-VR-2: the shortest success.
theorem witness_ReadSucceedsExactlyOnReadFrames :
    configOk defaultConfig = true ∧ readReq.kind = .read ∧ readReq.fc = defaultConfig.fcRead ∧
    (validate defaultConfig readReq [0x01, 0x03, 0x00, 0xF0, 0x20]).err = .ok := by decide +kernel

-- V-VR-15.
theorem witness_DeviceExceptionRecognised :
    (validate defaultConfig readReq [0x01, 0x83, 0x00, 0x30, 0x41]).err = .deviceException := by decide +kernel

theorem witness_ValidatorDoesNotCheck :
    configOk defaultConfig = true ∧ readReq.fc = functionCode defaultConfig readReq.kind ∧ readReq.kind = .read ∧
    ([0xFD] : Frame).length + 2 = defaultConfig.readHdrLen ∧
    defaultConfig.readHdrLen + (List.replicate 251 (0 : Byte)).length + 2 ≤ defaultConfig.maxFrame ∧
    writeReq.fc = functionCode defaultConfig writeReq.kind ∧
    ([0, 0, 0] : Frame).length + 5 ≤ responseCap defaultConfig writeReq.kind := by decide +kernel

theorem witness_DecoderAgreesWithValidator :
    configOk defaultConfig = true ∧ readReq.fc = functionCode defaultConfig readReq.kind ∧
    ([0x01, 0x83, 0x02, 0xF1, 0xC0] : Frame).getD 0 0 = readReq.addr := by decide

theorem witness_DecodeOfEncode :
    configOk defaultConfig = true ∧ Instr.wellFormed defaultConfig (.illegalRsv 1 0xF 0xFFFF 0xFFFF) = true ∧
    Instr.wellFormed defaultConfig (.frameReadResp 1 [0xFD] (List.replicate 251 0)) = true ∧
    Instr.wellFormed defaultConfig (.frameReadResp 1 [0] []) = true ∧
    Instr.wellFormed defaultConfig (.frameException .write 1 3 [0, 0, 0]) = true := by decide +kernel

theorem witness_EncodeOfDecode :
    configOk defaultConfig = true ∧ decode defaultConfig (.command 0x0000000011) = .ok (.illegalRsv 1 1 0 0) ∧
    decode defaultConfig (.request readFrame) = .ok (.frameReadReq 0x01 0x0000 0x0001) := by decide +kernel

theorem witness_AssembledWordsDecode : 65535 < 2 ^ 16 ∧ 2 ^ 16 ≤ 65536 ∧ 2 ^ 40 ≤ 0x10000000000 := by decide

theorem witness_LinkCommandsStartTransaction :
    configOk idle0.cfg = true ∧ idle0.fsm = .idle ∧ idle0.linkUp = true ∧
    configOk State.reset.cfg = true ∧ State.reset.fsm = .idle ∧ State.reset.linkUp = false := by decide

theorem witness_SetAddrSetsOrRejects :
    configOk idle0.cfg = true ∧ idle0.fsm = .idle ∧
    (idle0.cfg.addrMin ≤ (1#16).toNat ∧ (1#16).toNat ≤ idle0.cfg.addrMax) ∧
    (idle0.cfg.addrMin ≤ (247#16).toNat ∧ (247#16).toNat ≤ idle0.cfg.addrMax) ∧
    (0#16).toNat < idle0.cfg.addrMin ∧ idle0.cfg.addrMax < (248#16).toNat := by decide

theorem witness_GetAddrReadsAddr : configOk idle0.cfg = true ∧ idle0.fsm = .idle := by decide

theorem witness_IllegalWordsComplete :
    configOk idle0.cfg = true ∧ idle0.fsm = .idle ∧ cmdRsv 0x00000000F3 ≠ 0 ∧ cmdOp 0x0000000000 = 0 ∧
    7 ≤ (cmdOp 0x0000000007).toNat := by decide

-- V-APP-18, V-APP-19: with MAX_FRAME = 8, the length 6 is the largest legal one; and an empty buffer.
theorem witness_CrcAppendEffect :
    configOk idle8.cfg = true ∧ idle8.fsm = .idle ∧ idle8.cfg.maxFrame < (7#16).toNat + 2 ∧
    ((6#16).toNat + 2 ≤ idle8.cfg.maxFrame ∧ data6.length = (6#16).toNat ∧
      ∀ j, j < (6#16).toNat → (loaded idle8 data6).buf.read j = some (data6.getD j 0)) ∧
    ∃ j, j < (6#16).toNat ∧ idle8.buf.read j = none :=
  ⟨by decide, by decide, by decide, by decide +kernel, 0, by decide, by decide⟩

theorem witness_CrcAppendStoresOnlyTheCrcBytes :
    ∃ t, exec (.crcAppend 6 0) (loaded idle8 data6) = .next t ∧ t.err = .ok := by
  obtain ⟨t, h, e⟩ := answers (r := exec (.crcAppend 6 0) (loaded idle8 data6)) (p := fun t => decide (t.err = .ok))
    (by decide +kernel)
  exact ⟨t, h, of_decide_eq_true e⟩

theorem witness_AppendThenCheckSucceeds :
    ∃ t, exec (.crcAppend 0 0) idle8 = .next t ∧ t.err = .ok := by
  obtain ⟨t, h, e⟩ := answers (r := exec (.crcAppend 0 0) idle8) (p := fun t => decide (t.err = .ok)) (by decide +kernel)
  exact ⟨t, h, of_decide_eq_true e⟩

-- The lengths 9, 1, 8 and 2 with MAX_FRAME = 8.
theorem witness_CrcCheckEffect :
    configOk idle8.cfg = true ∧ idle8.fsm = .idle ∧ idle8.cfg.maxFrame < (9#16).toNat ∧ (1#16).toNat < 2 ∧
    ((8#16).toNat ≤ idle8.cfg.maxFrame ∧ data6.length + 2 = (8#16).toNat ∧
      ∀ j, j < (8#16).toNat → (loaded idle8 readFrame).buf.read j = some ((data6 ++ [0x0A, 0x84]).getD j 0)) ∧
    (([] : Frame).length + 2 = (2#16).toNat ∧
      ∀ j, j < (2#16).toNat → (loaded idle8 [0xFF, 0xFF]).buf.read j = some (([] ++ [0xFF, 0xFF]).getD j 0)) ∧
    ∃ j, j < (2#16).toNat ∧ idle8.buf.read j = none :=
  ⟨by decide, by decide, by decide, by decide, by decide +kernel, by decide +kernel, 0, by decide, by decide⟩

theorem witness_CorruptionAfterAppendDetected :
    ∃ t, exec (.crcAppend 6 0) (loaded idle8 data6) = .next t ∧ t.err = .ok ∧ 7 < (6#16).toNat + 2 ∧
      t.buf.read 7 ≠ some 0x85 ∧ t.buf.read 0 ≠ some 0x02 := by
  obtain ⟨t, h, e⟩ := answers (r := exec (.crcAppend 6 0) (loaded idle8 data6))
    (p := fun t => decide (t.err = .ok ∧ t.buf.read 7 ≠ some 0x85 ∧ t.buf.read 0 ≠ some 0x02)) (by decide +kernel)
  obtain ⟨e1, e2, e3⟩ := of_decide_eq_true e
  exact ⟨t, h, e1, by decide, e2, e3⟩

theorem witness_RequestFramesAreTransmitted :
    configOk (busyIn .send readReq readFrame).cfg = true ∧ (busyIn .send readReq readFrame).fsm = .send ∧
    (busyIn .send readReq readFrame).txbuf = withCrc [0x01, 0x03, 0x00, 0x00, 0x00, 0x01] ∧
    (busyIn .send writeReq writeFrame).txbuf = withCrc [0x01, 0x06, 0x01, 0x0E, 0x00, 0x01] := by decide +kernel

theorem witness_ReadResponseCompletesRead :
    configOk (busyIn .recv readReq readFrame).cfg = true ∧ (busyIn .recv readReq readFrame).fsm = .recv ∧
    readReq.kind = .read ∧ readReq.fc = defaultConfig.fcRead ∧ ([0x02] : Frame).length + 2 = defaultConfig.readHdrLen ∧
    defaultConfig.readHdrLen + ([] : Frame).length + 2 ≤ defaultConfig.maxFrame ∧
    defaultConfig.readHdrLen + (List.replicate 251 (0 : Byte)).length + 2 ≤ defaultConfig.maxFrame := by decide +kernel

theorem witness_WriteEchoCompletesWrite :
    configOk (busyIn .recv writeReq writeFrame).cfg = true ∧ (busyIn .recv writeReq writeFrame).fsm = .recv ∧
    writeReq.kind = .write ∧ writeReq.fc = defaultConfig.fcWrite := by decide

theorem witness_ExceptionResponseCompletes :
    configOk (busyIn .recv writeReq writeFrame).cfg = true ∧ (busyIn .recv writeReq writeFrame).fsm = .recv ∧
    writeReq.fc = functionCode defaultConfig writeReq.kind ∧
    ([0, 0, 0] : Frame).length + 5 ≤ responseCap defaultConfig writeReq.kind := by decide

theorem witness_StepRunsDecodedCommand :
    configOk idle0.cfg = true ∧
    (given idle0 [.event true (.cmd 0x0002030001)]).inputs = [.event true (.cmd 0x0002030001)] ∧
    decode idle0.cfg (.command 0x0002030001) = .ok (.readRegs 0x0300 2) := by decide

theorem witness_StepRunsDecodedFrames :
    configOk idle0.cfg = true ∧
    decode idle0.cfg (.request (busyIn .send readReq readFrame).txbuf) = .ok (.frameReadReq 0x01 0 1) ∧
    decode idle0.cfg (.response (busyIn .recv writeReq writeFrame).req.kind writeFrame) =
      .ok (.frameWriteEcho 0x01 0x010E 1) := by decide +kernel

theorem witness_WaitStatesMoveOn :
    configOk idle0.cfg = true ∧ (busyIn .gapPre readReq readFrame).fsm = .gapPre ∧
    (busyIn .flush readReq readFrame).fsm = .flush ∧ (busyIn .gapPost readReq readFrame).fsm = .gapPost ∧
    (given (busyIn .flush readReq readFrame) [.event false .flushAck]).inputs = [.event false .flushAck] := by decide

theorem witness_TxDoneEndsTransmit :
    configOk idle0.cfg = true ∧ (busyIn .send readReq readFrame).fsm = .send ∧
    (given (busyIn .send readReq readFrame) [.event true (.txDone .ioError)]).inputs = [.event true (.txDone .ioError)] :=
  by decide

-- A frame of one byte, and one longer than MAX_FRAME.
theorem witness_ReceivedFrameIsStored :
    configOk idle8.cfg = true ∧ (busyIn .recv readReq readFrame).fsm = .recv ∧ ([0x01] : Frame) ≠ [] ∧
    idle8.cfg.maxFrame < (readFrame ++ [0x00]).length ∧
    (given (busyIn .recv readReq readFrame) [.event false (.rxDone (.frame [0x01]))]).inputs =
      [.event false (.rxDone (.frame [0x01]))] := by decide

theorem witness_RxDoneCompletes :
    configOk idle0.cfg = true ∧ (busyIn .recv readReq readFrame).fsm = .recv ∧ ([0x01] : Frame) ≠ [] ∧
    (given (busyIn .recv readReq readFrame) [.event true (.rxDone (.frame [0x01]))]).inputs =
      [.event true (.rxDone (.frame [0x01]))] := by decide

-- HostBufWrite at MAX_FRAME - 1 is listed, at MAX_FRAME it is not; a command is not listed in SEND.
theorem witness_EventHasStepExactlyWhereListed :
    configOk idle0.cfg = true ∧ eventListed idle0.cfg .idle (.hostBufWrite 255 0) = true ∧
    eventListed idle0.cfg .idle (.hostBufWrite 256 0) = false ∧ eventListed idle0.cfg .send (.cmd 1) = false := by decide

theorem witness_TransactionEndsWithinFiveSteps :
    configOk (busyIn .gapPre readReq readFrame).cfg = true ∧ (busyIn .gapPre readReq readFrame).fsm = .gapPre ∧
    TxOutcome.timedOut ≠ .ok ∧
    (given (busyIn .gapPre readReq readFrame)
      [.event true .gapElapsed, .event true .flushAck, .event true (.txDone .timedOut)]).inputs =
      [.event true .gapElapsed, .event true .flushAck, .event true (.txDone .timedOut)] := by decide

theorem witness_ReadTransactionReturnsPayload :
    configOk idle0.cfg = true ∧ idle0.fsm = .idle ∧ ([0x02] : Frame).length + 2 = idle0.cfg.readHdrLen ∧
    idle0.cfg.readHdrLen + ([0x12, 0x34] : Frame).length + 2 ≤ idle0.cfg.maxFrame ∧
    encodeCommand 0 1 0 1 = 0x0001000001 := by decide

theorem witness_WriteTransactionNeedsTheEcho :
    configOk idle0.cfg = true ∧ idle0.fsm = .idle ∧ writeFrame ≠ [] ∧ encodeCommand 0 2 0x010E 1 = 0x0001010E02 := by
  decide

-- A failing command; CRC_CHECK with a mismatch, which writes CRC; a response frame, which writes BUF.
theorem witness_FailedCommandsWriteNothingElse :
    (∃ t, exec (.setAddr 0 0) idle0 = .next t ∧ t.err ≠ .ok) ∧
    (∃ t, exec (.crcCheck 2 0) (loaded idle0 [0, 0]) = .next t ∧ t.crc ≠ (loaded idle0 [0, 0]).crc) ∧
    (∃ t, exec (.frameException .read 1 2 []) (busyIn .recv readReq readFrame) = .next t ∧ t.buf ≠ []) := by
  refine ⟨?_, ?_, ?_⟩
  · obtain ⟨t, h, e⟩ := answers (r := exec (.setAddr 0 0) idle0) (p := fun t => decide (t.err ≠ .ok)) (by decide +kernel)
    exact ⟨t, h, of_decide_eq_true e⟩
  · obtain ⟨t, h, e⟩ := answers (r := exec (.crcCheck 2 0) (loaded idle0 [0, 0]))
      (p := fun t => decide (t.crc ≠ (loaded idle0 [0, 0]).crc)) (by decide +kernel)
    exact ⟨t, h, of_decide_eq_true e⟩
  · obtain ⟨t, h, e⟩ := answers (r := exec (.frameException .read 1 2 []) (busyIn .recv readReq readFrame))
      (p := fun t => decide (t.buf ≠ [])) (by decide +kernel)
    exact ⟨t, h, of_decide_eq_true e⟩

theorem witness_RegistersHaveTheirWriters :
    (∃ t, exec (.setAddr 5 0) idle0 = .next t ∧ t.addr ≠ idle0.addr) ∧
    (∃ t, exec (.readRegs 0 1) { idle0 with rxCount := 7 } = .next t ∧ t.rxCount ≠ 7 ∧ t.txbuf ≠ idle0.txbuf) := by
  refine ⟨?_, ?_⟩
  · obtain ⟨t, h, e⟩ := answers (r := exec (.setAddr 5 0) idle0) (p := fun t => decide (t.addr ≠ idle0.addr))
      (by decide +kernel)
    exact ⟨t, h, of_decide_eq_true e⟩
  · obtain ⟨t, h, e⟩ := answers (r := exec (.readRegs 0 1) { idle0 with rxCount := 7 })
      (p := fun t => decide (t.rxCount ≠ 7 ∧ t.txbuf ≠ idle0.txbuf)) (by decide +kernel)
    exact ⟨t, h, of_decide_eq_true e⟩

theorem witness_ResultsStayUntilTheNextCommand :
    (∃ t, step (given idle0 [.ports quiet]) = .next t) ∧
    (∃ t, step (given idle0 [.event true (.hostBufWrite 255 0xAA)]) = .next t) ∧ idle0.fsm = .idle ∧
    (∀ up w, Input.ports quiet ≠ .event up (.cmd w)) ∧ (∀ up, Input.ports quiet ≠ .event up .reset) ∧
    quiet.rst = false ∧ quiet.cmdValid = false := by
  refine ⟨⟨_, rfl⟩, ⟨_, rfl⟩, rfl, ?_, ?_, rfl, rfl⟩ <;> intros <;> exact fun h => nomatch h

theorem witness_BusyFramerIgnoresTheHost : (busyIn .recv readReq readFrame).fsm ≠ .idle := by decide

/-- The idle state meets the invariant. -/
theorem framerInv_idle0 : FramerInv idle0 := by
  constructor <;> decide

/-- A state in SEND that meets the invariant. -/
theorem framerInv_send : FramerInv (busyIn .send readReq readFrame) := by
  constructor <;> decide +kernel

theorem witness_ResetStateHasTheInvariant : configOk config8 = true := by decide

theorem witness_StepKeepsTheInvariant :
    FramerInv (given (busyIn .send readReq readFrame) [.ports quiet]) ∧
    ∃ t, step (given (busyIn .send readReq readFrame) [.ports quiet]) = .next t :=
  ⟨framerInv_environment framerInv_send true [.ports quiet] 0, _, rfl⟩

theorem witness_ResetRestoresResetValues :
    configOk (busyIn .recv readReq readFrame).cfg = true ∧
    (given (busyIn .recv readReq readFrame) [.event true .reset]).inputs = [.event true .reset] ∧
    (PortSample.rst { quiet with rst := true }) = true := by decide

theorem witness_StatusWordLayout : FramerInv (busyIn .send readReq readFrame) := framerInv_send

theorem witness_BadConfigurationRefused :
    configOk (State.resetWith { defaultConfig with maxFrame := 7 }).cfg = false := by decide

theorem witness_ConfigurationIsFixed :
    (∃ t, exec (.setAddr 5 0) idle0 = .next t) ∧ ∃ t, step (given idle0 [.event true .reset]) = .next t :=
  ⟨⟨_, rfl⟩, _, rfl⟩

theorem witness_HostReadsBufInIdle :
    idle8.fsm = .idle ∧ (7#16).toNat < idle8.cfg.maxFrame ∧ (loaded idle8 readFrame).buf.read (7#16).toNat = some 0x84 ∧
    idle8.cfg.maxFrame ≤ (8#16).toNat := by decide

theorem witness_HostWritesBufInIdle :
    configOk idle8.cfg = true ∧ idle8.fsm = .idle ∧ (7#16).toNat < idle8.cfg.maxFrame ∧ quiet.rst = false ∧
    (PortSample.bufWe { quiet with bufWe := true }) = true ∧ quiet.cmdValid = false ∧
    (PortSample.cmdValid { quiet with cmdValid := true }) = true ∧ quiet.bufWe = false ∧
    idle8.cfg.maxFrame ≤ (PortSample.bufWaddr { quiet with bufWaddr := 8 }).toNat ∧
    (busyIn .recv readReq readFrame).fsm ≠ .idle := by decide

theorem witness_InterFrameDelayAtThePorts :
    configOk idle0.cfg = true ∧ quiet.rst = false ∧ quiet.ifdElapsed = false ∧
    (PortSample.ifdElapsed { quiet with ifdElapsed := true }) = true ∧
    (State.txRecent { busyIn .gapPre readReq readFrame with txRecent := true }) = true ∧
    (busyIn .gapPre readReq readFrame).txRecent = false ∧ (busyIn .gapPost readReq readFrame).fsm = .gapPost := by decide

theorem witness_RequestBytesOfferedInOrder :
    FramerInv (busyIn .send readReq readFrame) ∧ (busyIn .send readReq readFrame).fsm = .send ∧ quiet.rst = false :=
  ⟨framerInv_send, rfl, rfl⟩

-- Seven samples that take a byte and one that does not, then the sample that takes the eighth.
theorem witness_SendHandshakesRefineTxDone :
    let took : PortSample := { quiet with txReady := true }
    let ps := quiet :: List.replicate 7 took
    configOk idle0.cfg = true ∧ (busyIn .send readReq readFrame).fsm = .send ∧
    (busyIn .send readReq readFrame).txIdx = 0 ∧ (busyIn .send readReq readFrame).txRecent = false ∧
    (∀ x ∈ ps ++ [took], x.rst = false ∧ x.txStatus = 0) ∧ took.txReady = true ∧
    ((ps ++ [took]).filter (fun x => x.txReady)).length = 8 := by decide

-- No valid byte before the end of the frame, and one on the step of rx_eof.
theorem witness_ReceivedBytesRefineRxDone :
    let last : PortSample := { quiet with rxEof := true, rxValid := true, rxData := 0x01 }
    configOk idle0.cfg = true ∧ (busyIn .recv readReq readFrame).fsm = .recv ∧
    (busyIn .recv readReq readFrame).rxacc = [] ∧ (busyIn .recv readReq readFrame).txRecent = false ∧
    (∀ x ∈ [quiet] ++ [last], x.rst = false ∧ x.rxStatus = 0) ∧ (∀ x ∈ [quiet], x.rxEof = false) ∧
    last.rxEof = true := by decide

theorem witness_ReceiveStatusOutcomes :
    configOk idle0.cfg = true ∧ (busyIn .recv readReq readFrame).fsm = .recv ∧ quiet.rst = false ∧
    quiet.rxValid = false ∧ quiet.rxEof = false ∧ (busyIn .recv readReq readFrame).rxacc = [] ∧
    (State.rxacc { busyIn .recv readReq readFrame with rxacc := [0x01] }) ≠ [] ∧
    (PortSample.rxStatus { quiet with rxStatus := 0b10 }) = 0b10#2 := by decide

theorem witness_SendStatusOutcomes :
    configOk idle0.cfg = true ∧ (busyIn .send readReq readFrame).fsm = .send ∧ quiet.rst = false ∧
    (0b10#2, ErrCode.timedOut) ∈ [(0b01#2, ErrCode.notConnected), (0b10#2, .timedOut), (0b11#2, .ioError)] ∧
    (PortSample.txStatus { quiet with txStatus := 0b10, txReady := true }) = 0b10#2 := by decide

theorem witness_FlushHandshakeAtThePorts :
    configOk idle0.cfg = true ∧ (busyIn .flush readReq readFrame).fsm = .flush ∧ quiet.rst = false ∧
    quiet.flushAck = false ∧ (PortSample.flushAck { quiet with flushAck := true }) = true := by decide

theorem witness_OutputsFollowTheState : quiet.rst = false := by decide

end Sys2Proof.Tests
end

