-- ==== Sys2Proof/Proofs/Scope.lean ====
section
/-! The constraints on the configuration (00_scope.md R6): `configOk` states them, and no instruction and no step gets
past a configuration that breaks one. -/

namespace Sys2Proof.Proofs.Scope

open Machine Laws

/-- The constraints as R6 writes them: with `READ_HDR_LEN` at least 3, the truncated `MAX_FRAME - 2` is the true
difference. -/
theorem configOk_iff_spec (c : Config) :
    configOk c = true ↔
      0 ≤ c.addrMin ∧ c.addrMin ≤ c.addrReset ∧ c.addrReset ≤ c.addrMax ∧ c.addrMax ≤ 255 ∧
      8 ≤ c.maxFrame ∧ c.maxFrame ≤ 65535 ∧
      c.fcRead ≠ c.fcWrite ∧ c.fcRead &&& c.excFlag = 0 ∧ c.fcWrite &&& c.excFlag = 0 ∧ c.excFlag ≠ 0 ∧
      3 ≤ c.readHdrLen ∧ c.readHdrLen ≤ c.maxFrame - 2 := by
  have hdrLen_iff : 3 ≤ c.readHdrLen ∧ c.readHdrLen + 2 ≤ c.maxFrame ↔
      3 ≤ c.readHdrLen ∧ c.readHdrLen ≤ c.maxFrame - 2 := by omega
  rw [configOk_iff, hdrLen_iff]
  simp only [Nat.zero_le, true_and]

/-! ## The guard refuses first

Every instruction runs a command word (`acceptCommand`), a request frame (`transmitted`) or a response frame
(`received`), and each of the three stands behind the guard `inState`. -/

theorem acceptCommand_badConfig {k : State → StepResult} {s : State} (hc : configOk s.cfg = false) :
    acceptCommand k s = .refused .badConfig :=
  inState_badConfig hc

theorem illegalCommand_badConfig {s : State} (hc : configOk s.cfg = false) :
    illegalCommand s = .refused .badConfig :=
  acceptCommand_badConfig hc

theorem transmitted_badConfig {f : Frame} {s : State} (hc : configOk s.cfg = false) :
    transmitted f s = .refused .badConfig :=
  inState_badConfig hc

theorem received_badConfig {f : Frame} {s : State} (hc : configOk s.cfg = false) :
    received f s = .refused .badConfig :=
  inState_badConfig hc

theorem exec_badConfig {s : State} (hc : configOk s.cfg = false) (i : Instr) : exec i s = .refused .badConfig := by
  cases i with
  | readRegs reg count => exact show execReadRegs reg count s = _ from acceptCommand_badConfig hc
  | writeReg reg value => exact show execWriteReg reg value s = _ from acceptCommand_badConfig hc
  | setAddr a b => exact show execSetAddr a b s = _ from acceptCommand_badConfig hc
  | getAddr a b => exact show execGetAddr a b s = _ from acceptCommand_badConfig hc
  | crcAppend n b => exact show execCrcAppend n b s = _ from acceptCommand_badConfig hc
  | crcCheck n b => exact show execCrcCheck n b s = _ from acceptCommand_badConfig hc
  | illegalOp0 | illegalOp7 | illegalOp8 | illegalOp9 | illegalOpA | illegalOpB | illegalOpC | illegalOpD | illegalOpE
  | illegalOpF | illegalRsv => exact illegalCommand_badConfig hc
  | frameReadReq | frameWriteReq => exact transmitted_badConfig hc
  | frameReadResp | frameWriteEcho | frameException => exact received_badConfig hc

theorem step_badConfig {s : State} (hc : configOk s.cfg = false) : step s = .refused .badConfig := by
  simp [step, runNext, hc]

/-- Settles O49: the guard of every instruction, and that of the step, refuses the configuration first. -/
theorem badConfigurationRefused : Obligations.BadConfigurationRefused :=
  ⟨configOk_iff_spec, fun _ hc => ⟨step_badConfig hc, exec_badConfig hc⟩⟩

end Sys2Proof.Proofs.Scope
end
-- ==== Sys2Proof/Proofs/FrameEvents.lean ====
section
/-! What the link's events do, whatever the frame decodes to (42_commands.md R157, R159): decoding loses no byte of a
frame, so the instruction of a decoded frame does what the event does with the frame itself. -/

namespace Sys2Proof.Proofs.FrameEvents

open Machine Laws

/-! ## Decoding a frame loses nothing -/

theorem eq_withCrc_of_crcOk {f : Frame} (h : crcOk f = true) : f = withCrc (f.take (f.length - 2)) := by
  obtain ⟨_, hcrc⟩ := (crcOk_iff f).1 h
  rw [withCrc, ← hcrc, List.take_append_drop]

theorem encode_of_decodeRequest {c : Config} {f : Frame} {i : Instr} (h : decodeRequest c f = .ok i) :
    encode c i = .request f := by
  unfold decodeRequest at h
  split at h
  case h_1 dev fc r1 r0 v1 v0 _ _ =>
    split at h
    · cases h
    · next hcrc =>
      have hf := eq_withCrc_of_crcOk (eq_true_of_ne_false hcrc)
      split at h
      · next hfc => cases h; rw [hf, hfc]; simp [encode, requestFrame]
      · split at h
        · next hfc => cases h; rw [hf, hfc]; simp [encode, requestFrame]
        · cases h
  case h_2 => cases h

theorem encode_of_decodeResponseBody {c : Config} {kind : Kind} {body : Frame} {i : Instr}
    (h : decodeResponseBody c kind body = .ok i) : encode c i = .response kind (withCrc body) := by
  unfold decodeResponseBody at h
  split at h
  case h_1 dev fc x xs =>
    split at h
    · next hexc => cases h; rw [hexc]; rfl
    · split at h
      · cases h
      · next hfc =>
        rw [not_not.1 hfc]
        cases kind with
        | read =>
          simp only [decodeReadBody] at h
          split at h <;> cases h
          simp [encode, readResponseFrame, functionCode]
        | write =>
          simp only [decodeWriteBody] at h
          split at h
          · next heq => cases h; rw [heq]; simp [encode, requestFrame, functionCode]
          · cases h
  case h_2 => cases h

theorem encode_of_decodeResponse {c : Config} {kind : Kind} {f : Frame} {i : Instr}
    (h : decodeResponse c kind f = .ok i) : encode c i = .response kind f := by
  unfold decodeResponse at h
  split at h
  · cases h
  · split at h
    · cases h
    · split at h
      · cases h
      · next hcrc =>
        rw [encode_of_decodeResponseBody h, ← eq_withCrc_of_crcOk (eq_true_of_ne_false hcrc)]

/-! ## The instruction of a frame -/

theorem exec_of_encode_request {i : Instr} {s : State} {f : Frame} (h : encode s.cfg i = .request f) :
    exec i s = transmitted f s := by
  cases i <;> cases h <;> rfl

theorem exec_of_encode_response {i : Instr} {s : State} {kind : Kind} {f : Frame}
    (h : encode s.cfg i = .response kind f) : exec i s = received f s := by
  cases i <;> cases h <;> rfl

/-! ## The events of the link -/

theorem transmitted_txbuf (s : State) : transmitted s.txbuf s = inState .send (fun s => .next (txDone .ok s)) s := by
  simp [transmitted, inState]

/-- `TxDone(o)` takes place in SEND, whatever TXBUF holds (42_commands.md R157). -/
theorem txEvent_eq (o : TxOutcome) (s : State) : txEvent o s = inState .send (fun s => .next (txDone o s)) s := by
  cases o with
  | ok =>
    show transmitDone s = _
    unfold transmitDone
    split
    · next h => rw [exec_of_encode_request (encode_of_decodeRequest h), transmitted_txbuf]
    · rfl
  | notConnected | timedOut | ioError => rfl

/-- `RxDone(o)` takes place in RECV, whatever the frame decodes to (42_commands.md R159). -/
theorem rxEvent_eq (o : RxOutcome) (s : State) : rxEvent o s = inState .recv (fun s => .next (rxDone o s)) s := by
  cases o with
  | frame f =>
    show frameDone f s = _
    unfold frameDone
    split
    · next h => exact exec_of_encode_response (encode_of_decodeResponse h)
    · rfl
  | notConnected | timedOut | ioError => rfl

theorem txEvent_run {s : State} (hc : configOk s.cfg = true) (hf : s.fsm = .send) (o : TxOutcome) :
    txEvent o s = .next (txDone o s) := by
  rw [txEvent_eq, inState_run hc hf]

theorem rxEvent_run {s : State} (hc : configOk s.cfg = true) (hf : s.fsm = .recv) (o : RxOutcome) :
    rxEvent o s = .next (rxDone o s) := by
  rw [rxEvent_eq, inState_run hc hf]

end Sys2Proof.Proofs.FrameEvents
end

