-- ==== Sys2Proof/Proofs/Ports.lean ====
section
/-! The byte-level ports (10_state.md R24, R25, R28, R29): what a clock step does in each state of the automaton, and
what the outputs show. -/

namespace Sys2Proof.Proofs.Ports

open Machine Laws FrameEvents

/-! ## A clock step, state by state -/

theorem portStep_rst {p : PortSample} (hr : p.rst = true) (s : State) :
    portStep p s = .next (applyReset (latchSample p s)) := by
  simp [portStep, hr]

section
variable {p : PortSample} {s : State} (hr : p.rst = false)
include hr

theorem portStep_idle (hf : s.fsm = .idle) : portStep p s = idleSample p (latchSample p s) := by
  simp [portStep, hr, hf]

theorem portStep_gapPre (hf : s.fsm = .gapPre) : portStep p s = gapPreSample (latchSample p s) := by
  simp [portStep, hr, hf]

theorem portStep_flush (hf : s.fsm = .flush) :
    portStep p s = if p.flushAck then flushAck (latchSample p s) else .next (latchSample p s) := by
  simp [portStep, hr, hf]

theorem portStep_send (hf : s.fsm = .send) : portStep p s = sendSample p (latchSample p s) := by
  simp [portStep, hr, hf]

theorem portStep_gapPost (hf : s.fsm = .gapPost) :
    portStep p s = if p.ifdElapsed then gapElapsed (latchSample p s) else .next (latchSample p s) := by
  simp [portStep, hr, hf]

theorem portStep_recv (hf : s.fsm = .recv) : portStep p s = recvSample p (latchSample p s) := by
  simp [portStep, hr, hf]

end

/-! ## The latches -/

/-- Before the end of the delay a clock step takes only the level of `link_up`. -/
theorem latchSample_running {p : PortSample} (h : p.ifdElapsed = false) (s : State) :
    latchSample p s = { s with linkUp := p.linkUp } := by
  simp [latchSample, h]

/-- At the end of the delay, and after it, `tx_recent` is 0. -/
theorem latchSample_fallen {p : PortSample} {s : State} (h : s.txRecent = false ∨ p.ifdElapsed = true) :
    latchSample p s = { s with linkUp := p.linkUp, txRecent := false } := by
  have : (s.txRecent && !p.ifdElapsed) = false := by
    rcases h with h | h <;> simp [h]
  simp [latchSample, this]

/-! ## The automaton's own moves -/

theorem gapElapsed_gapPre {s : State} (hc : configOk s.cfg = true) (hf : s.fsm = .gapPre) :
    gapElapsed s = .next (gapPreElapsed s) := by
  simp [gapElapsed, hf, inState_run hc hf]

theorem gapElapsed_gapPost {s : State} (hf : s.fsm = .gapPost) : gapElapsed s = .next (gapPostElapsed s) := by
  simp [gapElapsed, hf]

/-- Settles O53: the latch gives `tx_recent`, and the gap is left exactly when the sample lets it. -/
theorem interFrameDelayAtThePorts : Obligations.InterFrameDelayAtThePorts := by
  intro s p hc hr
  refine ⟨fun hf hrec hifd => ?waits, fun hf hfall => ?leavesPre, fun hf hifd => ?waitsPost, fun hf hifd => ?leavesPost⟩
  case waits =>
    rw [portStep_gapPre hr hf, latchSample_running hifd]
    exact if_pos hrec
  case leavesPre =>
    rw [portStep_gapPre hr hf, latchSample_fallen hfall]
    exact gapElapsed_gapPre hc hf
  case waitsPost => rw [portStep_gapPost hr hf, latchSample_running hifd, hifd]; rfl
  case leavesPost =>
    rw [portStep_gapPost hr hf, latchSample_fallen (.inr hifd), if_pos hifd]
    exact gapElapsed_gapPost hf

/-- Settles O59: FLUSH waits for the acknowledgement of the link. -/
theorem flushHandshakeAtThePorts : Obligations.FlushHandshakeAtThePorts := by
  intro s p hc hf hr
  rw [portStep_flush hr hf]
  refine ⟨fun hack => ?_, fun hack => ?_⟩
  · rw [hack]; rfl
  · rw [if_pos hack]; exact inState_run hc hf

/-! ## The transmitter -/

theorem sendSample_status {p : PortSample} {s : State} (hc : configOk s.cfg = true) (hf : s.fsm = .send)
    (h : p.txStatus ≠ 0) : sendSample p s = .next (txDone (txStatusOutcome p.txStatus) s) := by
  rw [sendSample, if_pos h, txEvent_run hc hf]

theorem sendSample_wait {p : PortSample} (h : p.txStatus = 0) (hready : p.txReady = false) (s : State) :
    sendSample p s = .next s := by
  simp [sendSample, h, hready]

theorem sendSample_take {p : PortSample} {s : State} (h : p.txStatus = 0) (hready : p.txReady = true)
    (hidx : s.txIdx + 1 < 8) : sendSample p s = .next { s with txIdx := s.txIdx + 1 } := by
  rw [sendSample, if_neg (not_not.2 h), if_pos hready]
  exact if_neg (Nat.not_le.2 hidx)

theorem sendSample_last {p : PortSample} {s : State} (hc : configOk s.cfg = true) (hf : s.fsm = .send)
    (h : p.txStatus = 0) (hready : p.txReady = true) (hidx : 8 ≤ s.txIdx + 1) :
    sendSample p s = .next (txDone .ok { s with txIdx := s.txIdx + 1 }) := by
  rw [sendSample, if_neg (not_not.2 h), if_pos hready]
  exact (if_pos hidx).trans (txEvent_run (s := { s with txIdx := s.txIdx + 1 }) hc hf .ok)

/-- Settles O58: each nonzero `tx_status` is a failed `TxDone`. -/
theorem sendStatusOutcomes : Obligations.SendStatusOutcomes := by
  intro s p v e hc hf hr hv hp
  have hne : p.txStatus ≠ 0 := by
    rw [hp]; rintro rfl; simp at hv
  rw [portStep_send hr hf, sendSample_status (s := latchSample p s) hc hf hne, hp]
  simp only [List.mem_cons, Prod.mk.injEq, List.not_mem_nil, or_false] at hv
  obtain ⟨rfl, rfl⟩ | ⟨rfl, rfl⟩ | ⟨rfl, rfl⟩ := hv <;> rfl

/-! ## The receiver -/

/-- What the receiver has collected once the sample has been seen (10_state.md R28). -/
def collected (p : PortSample) (s : State) : Frame := if p.rxValid then s.rxacc ++ [p.rxData] else s.rxacc

theorem recvSample_wait {p : PortSample} (h : p.rxStatus = 0) (heof : p.rxEof = false) (s : State) :
    recvSample p s = .next { s with rxacc := collected p s } := by
  simp [recvSample, h, heof, collected]

theorem recvSample_eof {p : PortSample} {s : State} (hc : configOk s.cfg = true) (hf : s.fsm = .recv)
    (h : p.rxStatus = 0) (heof : p.rxEof = true) :
    recvSample p s = .next (rxDone (.frame (collected p s)) { s with rxacc := collected p s }) := by
  simp only [recvSample, h, heof, if_true]
  exact rxEvent_run (s := { s with rxacc := collected p s }) hc hf _

theorem recvSample_status {p : PortSample} {s : State} (hc : configOk s.cfg = true) (hf : s.fsm = .recv)
    (hvalid : p.rxValid = false) (heof : p.rxEof = false) (h : p.rxStatus ≠ 0) :
    recvSample p s = .next (rxDone (rxStatusOutcome p.rxStatus s.rxacc) s) := by
  have h0 : ¬ p.rxStatus = 0#2 := h
  simp [recvSample, h0, heof, hvalid, rxEvent_run hc hf]

/-- Settles O57: each nonzero `rx_status` is an `RxDone`; an empty frame has the rule of a time-out. -/
theorem receiveStatusOutcomes : Obligations.ReceiveStatusOutcomes := by
  intro s p hc hf hr hvalid heof
  have hstep (h : p.rxStatus ≠ 0) :
      portStep p s = .next (rxDone (rxStatusOutcome p.rxStatus s.rxacc) (latchSample p s)) := by
    rw [portStep_recv hr hf, recvSample_status (s := latchSample p s) hc hf hvalid heof h, latchSample_rxacc]
  refine ⟨fun v e hv hp => ?error, fun hp hacc => ?frame, fun up rest hin => ?empty⟩
  case error =>
    simp only [List.mem_cons, Prod.mk.injEq, List.not_mem_nil, or_false] at hv
    obtain (⟨rfl, rfl⟩ | ⟨rfl, rfl⟩) | ⟨rfl, hacc, rfl⟩ := hv
    · rw [hstep (by simp [hp]), hp]; rfl
    · rw [hstep (by simp [hp]), hp]; rfl
    · have houtcome : rxStatusOutcome p.rxStatus s.rxacc = .timedOut := by simp [rxStatusOutcome, hp, hacc]
      rw [hstep (by simp [hp]), houtcome]; rfl
  case frame =>
    have houtcome : rxStatusOutcome p.rxStatus s.rxacc = .frame s.rxacc := by simp [rxStatusOutcome, hp, hacc]
    rw [hstep (by simp [hp]), houtcome, rxDone_frame hacc]
    rfl
  case empty =>
    rw [step_event hc hin,
      step_event (s := { s with inputs := .event up (.rxDone .timedOut) :: rest }) hc rfl]
    simp only [fireEvent, rxEvent_eq]
    rfl

/-! ## The outputs -/

/-- Settles O54: the invariant says that TXBUF is the request of REQ and that `tx_idx` is inside it. -/
theorem requestBytesOfferedInOrder : Obligations.RequestBytesOfferedInOrder := by
  intro s p hinv hf hr
  have hidx : s.txIdx < 8 := hinv.sendTxIdx hf
  have hbuf : s.txbuf = encodeReq s.req := hinv.busyTxbuf (by simp [hf])
  have hlen : s.txIdx < (encodeReq s.req).length := hidx
  refine ⟨by simp [portOutputs, hf, hr], hidx, ?_⟩
  simp only [portOutputs, hf, hr, hbuf, decide_true, Bool.not_false, Bool.and_self, if_true]
  rw [List.getD_eq_getElem _ _ hlen, List.getD_eq_getElem _ _ hlen]

/-- Settles O60: outside reset the requests to the link and the host tell the state of the automaton; the other outputs
are the registers themselves. -/
theorem outputsFollowTheState : Obligations.OutputsFollowTheState := by
  intro s p
  refine ⟨fun hr => ?_, rfl, rfl, rfl, rfl, rfl, rfl⟩
  simp [portOutputs, hr]

end Sys2Proof.Proofs.Ports
end

