-- ==== Sys2Proof/Proofs/StepMoves.lean ====
section
/-! What one step can do: it is a chain of moves (`Move`), so a fact that every move keeps is one that every step keeps.
The first such fact: the configuration is fixed (10_state.md R40). -/

namespace Sys2Proof.Proofs.StepMoves

open Machine Laws FrameEvents Ports

/-! ## The moves of a step -/

/-- What the parts of one step do. A clock step makes up to three of them one after the other: the environment and the
delay, the host's buffer write, and the automaton. In GAP_POST the end of the delay is one with the move to RECV. -/
inductive Move : State → State → Prop
  | environment (s : State) (up : Bool) (xs : List Input) (n : Nat) :
    Move s { s with linkUp := up, inputs := xs, draws := n }
  | delayEnds {s : State} (hf : s.fsm ≠ .gapPost) : Move s { s with txRecent := false }
  | reset (s : State) : Move s (applyReset s)
  | bufWrite {s : State} (hf : s.fsm = .idle) (i : Nat) (v : Byte) : Move s (bufWrite i v s)
  | exec {s t : State} (he : ExecEffect s t) : Move s t
  | leaveGapPre {s : State} (hf : s.fsm = .gapPre) : Move s (gapPreElapsed s)
  | flushed {s : State} (hf : s.fsm = .flush) : Move s (flushAcked s)
  | takeByte {s : State} (hf : s.fsm = .send) (h : s.txIdx + 1 < 8) : Move s { s with txIdx := s.txIdx + 1 }
  | lastByte {s : State} (hf : s.fsm = .send) : Move s (txDone .ok { s with txIdx := s.txIdx + 1 })
  | sent {s : State} (hf : s.fsm = .send) (o : TxOutcome) : Move s (txDone o s)
  | leaveGapPost {s : State} (hf : s.fsm = .gapPost) : Move s (gapPostElapsed s)
  | collect {s : State} (hf : s.fsm = .recv) (acc : Frame) : Move s { s with rxacc := acc }
  | received {s : State} (hf : s.fsm = .recv) (o : RxOutcome) : Move s (rxDone o s)

/-- A chain of moves. -/
abbrev Moves : State → State → Prop := Relation.ReflTransGen Move

/-! ## Every step is a chain of moves -/

theorem moves_linkUp (s : State) (up : Bool) : Moves s { s with linkUp := up } :=
  .single (.environment s up s.inputs s.draws)

theorem moves_latchSample {p : PortSample} {s : State} (h : s.fsm ≠ .gapPost ∨ p.ifdElapsed = false) :
    Moves s (latchSample p s) := by
  cases hifd : p.ifdElapsed with
  | false => rw [latchSample_running hifd]; exact moves_linkUp s p.linkUp
  | true =>
    rw [latchSample_fallen (.inr hifd)]
    exact (moves_linkUp s p.linkUp).tail (.delayEnds (h.resolve_right (by simp [hifd])))

theorem moves_exec {i : Instr} {s t : State} (h : exec i s = .next t) : Moves s t := .single (.exec (exec_effect h))

theorem moves_txEvent {o : TxOutcome} {s t : State} (h : txEvent o s = .next t) : Moves s t := by
  rw [txEvent_eq] at h
  obtain ⟨-, hf, h⟩ := inState_next.1 h
  cases h
  exact .single (.sent hf o)

theorem moves_rxEvent {o : RxOutcome} {s t : State} (h : rxEvent o s = .next t) : Moves s t := by
  rw [rxEvent_eq] at h
  obtain ⟨-, hf, h⟩ := inState_next.1 h
  cases h
  exact .single (.received hf o)

theorem moves_gapElapsed {s t : State} (h : gapElapsed s = .next t) : Moves s t := by
  unfold gapElapsed at h
  split at h
  · next hf => cases h; exact .single (.leaveGapPost hf)
  · obtain ⟨-, hf, h⟩ := inState_next.1 h
    cases h
    exact .single (.leaveGapPre hf)

theorem moves_flushAck {s t : State} (h : flushAck s = .next t) : Moves s t := by
  obtain ⟨-, hf, h⟩ := inState_next.1 h
  cases h
  exact .single (.flushed hf)

theorem moves_hostBufWrite {i : Word} {v : Byte} {s t : State} (h : hostBufWrite i v s = .next t) : Moves s t := by
  obtain ⟨-, hf, h⟩ := inState_next.1 h
  split at h <;> cases h
  exact .single (.bufWrite hf i.toNat v)

theorem moves_fireEvent {e : Event} {s t : State} (h : fireEvent e s = .next t) : Moves s t := by
  cases e with
  | cmd w => exact moves_exec h
  | hostBufWrite i v => exact moves_hostBufWrite h
  | gapElapsed => exact moves_gapElapsed h
  | flushAck => exact moves_flushAck h
  | txDone o => exact moves_txEvent h
  | rxDone o => exact moves_rxEvent h
  | reset => cases h; exact .single (.reset s)

theorem moves_idleSample {p : PortSample} {s t : State} (hf : s.fsm = .idle) (h : idleSample p s = .next t) :
    Moves s t := by
  have hwrite : Moves s (if p.bufWe then bufWrite p.bufWaddr.toNat p.bufWdata s else s) := by
    split
    · exact .single (.bufWrite hf _ _)
    · exact .refl
  unfold idleSample at h
  dsimp only at h
  split at h
  · exact hwrite.trans (moves_exec h)
  · cases h; exact hwrite

theorem moves_sendSample {p : PortSample} {s t : State} (hf : s.fsm = .send) (h : sendSample p s = .next t) :
    Moves s t := by
  unfold sendSample at h
  split at h
  · exact moves_txEvent h
  · split at h
    · dsimp only at h
      split at h
      · rw [txEvent_eq] at h
        obtain ⟨-, -, h⟩ := inState_next.1 h
        cases h
        exact .single (.lastByte hf)
      · next hidx => cases h; exact .single (.takeByte hf (Nat.not_le.1 hidx))
    · cases h; exact .refl

theorem moves_recvSample {p : PortSample} {s t : State} (hf : s.fsm = .recv) (h : recvSample p s = .next t) :
    Moves s t := by
  have hcollect : Moves s { s with rxacc := collected p s } := .single (.collect hf _)
  refine hcollect.trans ?_
  unfold recvSample at h
  dsimp only at h
  split at h
  · split at h
    · exact moves_rxEvent h
    · cases h; exact .refl
  · split at h <;> exact moves_rxEvent h

theorem moves_portStep {p : PortSample} {s t : State} (h : portStep p s = .next t) : Moves s t := by
  cases hr : p.rst with
  | true =>
    rw [portStep_rst hr] at h
    cases h
    exact (moves_linkUp s p.linkUp).tail (.reset _)
  | false =>
    cases hf : s.fsm with
    | idle =>
      rw [portStep_idle hr hf] at h
      exact (moves_latchSample (.inl (by simp [hf]))).trans (moves_idleSample hf h)
    | gapPre =>
      rw [portStep_gapPre hr hf] at h
      refine (moves_latchSample (p := p) (.inl (by simp [hf]))).trans ?_
      unfold gapPreSample at h
      split at h
      · cases h; exact .refl
      · exact moves_gapElapsed h
    | flush =>
      rw [portStep_flush hr hf] at h
      refine (moves_latchSample (p := p) (.inl (by simp [hf]))).trans ?_
      split at h
      · exact moves_flushAck h
      · cases h; exact .refl
    | send =>
      rw [portStep_send hr hf] at h
      exact (moves_latchSample (.inl (by simp [hf]))).trans (moves_sendSample hf h)
    | gapPost =>
      rw [portStep_gapPost hr hf] at h
      split at h
      · rw [gapElapsed_gapPost (s := latchSample p s) hf] at h
        cases h
        exact (moves_linkUp s p.linkUp).tail (.leaveGapPost hf)
      · next hifd => cases h; exact moves_latchSample (.inr (eq_false_of_ne_true hifd))
    | recv =>
      rw [portStep_recv hr hf] at h
      exact (moves_latchSample (.inl (by simp [hf]))).trans (moves_recvSample hf h)

/-- Everything a step can do when it answers a next state. -/
theorem moves_step {s t : State} (h : step s = .next t) : Moves s t := by
  change runNext s = _ at h
  unfold runNext at h
  split at h
  · split at h
    · cases h
    · next x rest hin =>
      cases x with
      | event up e => exact .head (.environment s up rest (s.draws + 1)) (moves_fireEvent h)
      | ports p => exact .head (.environment s s.linkUp rest (s.draws + 1)) (moves_portStep h)
  · cases h

/-- What every move keeps, every step keeps. -/
theorem step_keeps {P : State → Prop} (hP : ∀ {s t : State}, P s → Move s t → P t) {s t : State} (hs : P s)
    (h : step s = .next t) : P t := by
  have hmoves := moves_step h
  clear h
  induction hmoves with
  | refl => exact hs
  | tail _ hm ih => exact hP ih hm

/-! ## The configuration -/

theorem exec_keeps_cfg {s t : State} (he : ExecEffect s t) : t.cfg = s.cfg := by
  cases he with
  | start hf kind a b => unfold startTransaction; dsimp only; split <;> rfl
  | setAddr hf a => unfold setAddress; split <;> rfl
  | check hf n g => unfold checkCrc; dsimp only; split <;> rfl
  | getAddr | error | append | sent | received => rfl

theorem rxDone_keeps_cfg (o : RxOutcome) (s : State) : (rxDone o s).cfg = s.cfg := by
  unfold rxDone; split <;> rfl

theorem txDone_keeps_cfg (o : TxOutcome) (s : State) : (txDone o s).cfg = s.cfg := by
  cases o <;> rfl

theorem move_keeps_cfg {s t : State} (hm : Move s t) : t.cfg = s.cfg := by
  cases hm with
  | exec he => exact exec_keeps_cfg he
  | sent hf o => exact txDone_keeps_cfg o s
  | received hf o => exact rxDone_keeps_cfg o s
  | environment | delayEnds | reset | bufWrite | leaveGapPre | flushed | takeByte | lastByte | leaveGapPost
  | collect => rfl

/-- Settles O50: an instruction and each move of a step leave the configuration. -/
theorem configurationIsFixed : Obligations.ConfigurationIsFixed :=
  ⟨fun _ _ _ h => exec_keeps_cfg (exec_effect h),
   fun s _ h => step_keeps (P := fun t => t.cfg = s.cfg) (fun hs hm => (move_keeps_cfg hm).trans hs) rfl h⟩

end Sys2Proof.Proofs.StepMoves
end

