-- ==== Sys2Proof/Proofs/Invariant.lean ====
section
/-! The invariant `FramerInv`: reset has it, and every move of a step keeps it. A command completes from the clauses
about the registers alone (`RegistersOk`); a running transaction carries its clauses about the request along. -/

namespace Sys2Proof.Proofs.Invariant

open Machine Laws StepMoves

/-! ## The clauses that do not look at the automaton -/

/-- The clauses of `FramerInv` about the registers alone. They are all that completing a command needs. -/
structure RegistersOk (s : State) : Prop where
  cfgOk : configOk s.cfg = true
  bufCanonical : s.buf.wf
  bufBounded : ∀ cell ∈ s.buf, cell.1 < s.cfg.maxFrame
  addrRange : s.cfg.addrMin ≤ s.addr.toNat ∧ s.addr.toNat ≤ s.cfg.addrMax
  rxCountRange : s.rxCount.toNat ≤ s.cfg.maxFrame
  txIdxRange : s.txIdx ≤ 8

theorem registersOk_of_framerInv {s : State} (h : FramerInv s) : RegistersOk s :=
  ⟨h.cfgOk, h.bufCanonical, h.bufBounded, h.addrRange, h.rxCountRange, h.txIdxRange⟩

section
variable {s : State} (h : RegistersOk s)
include h

theorem registersOk_clearStatus : RegistersOk (clearStatus s) := { h with }

theorem registersOk_setCrc (c : Word) : RegistersOk { s with crc := c } := { h with }

theorem registersOk_latchRequest (q : Request) : RegistersOk { s with req := q, rxCount := 0 } :=
  { h with rxCountRange := Nat.zero_le _ }

theorem registersOk_setAddr {a : Byte} (ha : s.cfg.addrMin ≤ a.toNat ∧ a.toNat ≤ s.cfg.addrMax) :
    RegistersOk { s with addr := a } :=
  { h with addrRange := ha }

theorem registersOk_bufWrite (i : Nat) (v : Byte) : RegistersOk (bufWrite i v s) := by
  by_cases hi : i < s.cfg.maxFrame
  · exact { h with
      bufCanonical := by rw [bufWrite_buf, if_pos hi]; exact write_wf h.bufCanonical i v
      bufBounded := by rw [bufWrite_buf, if_pos hi]; exact write_bounded h.bufBounded hi v }
  · have hsame : bufWrite i v s = s := by simp [bufWrite, hi]
    rwa [hsame]

theorem registersOk_storeResponse (f : Frame) : RegistersOk (storeResponse f s) :=
  { h with
    bufCanonical := writeFrom_wf _ h.bufCanonical 0
    bufBounded := writeFrom_bounded _ h.bufBounded (by simp)
    rxCountRange := by
      simp only [storeResponse_rxCount, storeResponse_cfg, lengthWord, BitVec.toNat_ofNat]
      exact (Nat.mod_le _ _).trans (min_le_right _ _) }

/-- Completion establishes the invariant whatever went before (42_commands.md R150): the automaton is in IDLE, and the
clauses on RESULT and EXC_CODE are the case distinctions of `complete`. -/
theorem framerInv_complete (e : ErrCode) (r : Word) (x : Byte) : FramerInv (complete e r x s) where
  cfgOk := h.cfgOk
  bufCanonical := h.bufCanonical
  bufBounded := h.bufBounded
  addrRange := h.addrRange
  rxCountRange := h.rxCountRange
  txIdxRange := h.txIdxRange
  excCodeZero := fun he => if_neg he
  resultZero := fun he => if_neg he
  errDone := by simp
  busyNotDone := by simp
  busyRxCount := by simp
  busyReqAddr := by simp
  busyReqFc := by simp
  busyTxbuf := by simp
  sendTxIdx := by simp
  txRecentFallen := by simp
  txRecentSet := by simp

theorem framerInv_raiseError (e : ErrCode) (x : Byte) : FramerInv (raiseError e x s) := framerInv_complete h e 0 x

theorem framerInv_receiveFrame (f : Frame) : FramerInv (receiveFrame f s) :=
  framerInv_complete (registersOk_storeResponse h f) _ _ _

/-- With the link up the request is latched and the automaton goes to GAP_PRE; with it down the command completes
(42_commands.md R152). -/
theorem framerInv_startTransaction (kind : Kind) (a b : Word) :
    FramerInv (startTransaction kind (functionCode s.cfg kind) a b (clearStatus s)) := by
  cases hup : s.linkUp with
  | false =>
    rw [startTransaction_down (s := clearStatus s) hup]
    exact framerInv_raiseError (registersOk_latchRequest (registersOk_clearStatus h) _) _ _
  | true =>
    rw [startTransaction_up (s := clearStatus s) hup]
    exact { registersOk_latchRequest (registersOk_clearStatus h) (requestOf kind s.addr (functionCode s.cfg kind) a b)
      with
      excCodeZero := fun _ => rfl
      resultZero := fun he => absurd rfl he
      errDone := fun _ => rfl
      busyNotDone := fun _ => rfl
      busyRxCount := fun _ => rfl
      busyReqAddr := fun _ => rfl
      busyReqFc := fun _ => rfl
      busyTxbuf := fun _ => rfl
      sendTxIdx := by simp
      txRecentFallen := by simp
      txRecentSet := by simp }

/-- The range check of SET_ADDR is on the whole operand; in range it fits the byte that is stored (R170, R6). -/
theorem framerInv_setAddress (a : Word) : FramerInv (setAddress a s) := by
  cases hin : addrInRange s.cfg a with
  | false => rw [setAddress_out hin]; exact framerInv_raiseError h _ _
  | true =>
    have hmax := ((configOk_iff s.cfg).1 h.cfgOk).2.2.1
    have hrange : s.cfg.addrMin ≤ a.toNat ∧ a.toNat ≤ s.cfg.addrMax := by simpa [addrInRange] using hin
    have hbyte : (loByte a).toNat = a.toNat := by rw [loByte_toNat]; omega
    rw [setAddress_in hin]
    exact framerInv_complete (registersOk_setAddr h (by rwa [hbyte])) _ _ _

theorem framerInv_appendCrc (n : Nat) (d : Frame) : FramerInv (appendCrc n d s) :=
  framerInv_complete (registersOk_setCrc (registersOk_bufWrite (registersOk_bufWrite h _ _) _ _) _) _ _ _

theorem framerInv_checkCrc (n : Nat) (g : Frame) : FramerInv (checkCrc n g s) := by
  have hcrc := registersOk_setCrc h (crc16 (g.take (n - 2)))
  unfold checkCrc
  split
  · exact framerInv_complete hcrc _ _ _
  · exact framerInv_raiseError hcrc _ _

end

/-! ## Reset -/

theorem framerInv_resetWith {c : Config} (hc : configOk c = true) : FramerInv (State.resetWith c) := by
  obtain ⟨hmin, hmax, hbyte, -⟩ := (configOk_iff c).1 hc
  have haddr : (BitVec.ofNat 8 c.addrReset).toNat = c.addrReset := by
    rw [BitVec.toNat_ofNat]; omega
  constructor <;> simp [hc, haddr, hmin, hmax]

theorem framerInv_applyReset {s : State} (hc : configOk s.cfg = true) : FramerInv (applyReset s) :=
  framerInv_environment (framerInv_resetWith hc) s.linkUp s.inputs s.draws

/-- Settles O45: the reset values satisfy each clause; R6 puts ADDR_RESET in range. -/
theorem resetStateHasTheInvariant : Obligations.ResetStateHasTheInvariant :=
  ⟨fun _ hc => framerInv_resetWith hc, framerInv_resetWith (by decide)⟩

/-! ## While a transaction runs -/

/-- The automaton of a running transaction moves on: the clauses about the request go over, and only those about the new
state, `tx_idx` and `tx_recent` are asked for. -/
theorem framerInv_moveOn {s : State} (h : FramerInv s) (hbusy : s.fsm ≠ .idle) {st : Fsm} {n : Nat} {recent : Bool}
    (acc : Frame) (hn : n ≤ 8) (hsend : st = .send → n < 8)
    (hfallen : st = .flush ∨ st = .send ∨ st = .recv → recent = false) (hset : st = .gapPost → recent = true) :
    FramerInv { s with fsm := st, txIdx := n, rxacc := acc, txRecent := recent } :=
  { h with
    busyNotDone := fun _ => h.busyNotDone hbusy
    busyRxCount := fun _ => h.busyRxCount hbusy
    busyReqAddr := fun _ => h.busyReqAddr hbusy
    busyReqFc := fun _ => h.busyReqFc hbusy
    busyTxbuf := fun _ => h.busyTxbuf hbusy
    txIdxRange := hn
    sendTxIdx := hsend
    txRecentFallen := hfallen
    txRecentSet := hset }

theorem framerInv_txDone {s : State} (h : FramerInv s) (hf : s.fsm = .send) (o : TxOutcome) {n : Nat} (hn : n ≤ 8) :
    FramerInv (txDone o { s with txIdx := n }) := by
  by_cases ho : o = .ok
  · subst ho
    exact framerInv_moveOn h (by simp [hf]) s.rxacc hn (by simp) (by simp) (by simp)
  · have hregs := registersOk_of_framerInv h
    rw [txDone_error ho]
    exact framerInv_raiseError (s := { s with txIdx := n, txRecent := true }) { hregs with txIdxRange := hn } _ _

theorem framerInv_rxDone {s : State} (h : RegistersOk s) (o : RxOutcome) : FramerInv (rxDone o s) := by
  cases o with
  | frame f =>
    by_cases hf : f = []
    · subst hf; exact framerInv_raiseError h _ _
    · rw [rxDone_frame hf]; exact framerInv_receiveFrame h f
  | notConnected | timedOut | ioError => exact framerInv_raiseError h _ _

/-! ## Instructions -/

theorem framerInv_exec {s t : State} (h : FramerInv s) (he : ExecEffect s t) : FramerInv t := by
  have hregs := registersOk_of_framerInv h
  have hclear := registersOk_clearStatus hregs
  cases he with
  | start hf kind a b => exact framerInv_startTransaction hregs kind a b
  | setAddr hf a => exact framerInv_setAddress hclear a
  | getAddr hf => exact framerInv_complete hclear _ _ _
  | error hf e he => exact framerInv_raiseError hclear _ _
  | append hf n d => exact framerInv_appendCrc hclear n d
  | check hf n g => exact framerInv_checkCrc hclear n g
  | sent hf => exact framerInv_txDone h hf .ok h.txIdxRange
  | received hf f hne => exact framerInv_receiveFrame hregs f

/-! ## Steps -/

theorem move_keeps_framerInv {s t : State} (h : FramerInv s) (hm : Move s t) : FramerInv t := by
  cases hm with
  | environment up xs n => exact framerInv_environment h up xs n
  | delayEnds hf => exact { h with txRecentFallen := fun _ => rfl, txRecentSet := fun hpost => absurd hpost hf }
  | reset => exact framerInv_applyReset h.cfgOk
  | bufWrite hf i v =>
    have hregs := registersOk_bufWrite (registersOk_of_framerInv h) i v
    exact { h with bufCanonical := hregs.bufCanonical, bufBounded := hregs.bufBounded }
  | exec he => exact framerInv_exec h he
  | leaveGapPre hf =>
    exact framerInv_moveOn h (by simp [hf]) s.rxacc h.txIdxRange (by simp) (fun _ => rfl) (by simp)
  | flushed hf =>
    exact framerInv_moveOn h (by simp [hf]) s.rxacc (Nat.zero_le 8) (by simp)
      (fun _ => h.txRecentFallen (.inl hf)) (by simp)
  | takeByte hf hidx =>
    exact { h with txIdxRange := hidx.le, sendTxIdx := fun _ => hidx }
  | lastByte hf => exact framerInv_txDone h hf .ok (h.sendTxIdx hf)
  | sent hf o => exact framerInv_txDone h hf o h.txIdxRange
  | leaveGapPost hf =>
    exact framerInv_moveOn h (by simp [hf]) [] h.txIdxRange (by simp) (fun _ => rfl) (by simp)
  | collect hf acc => exact { h with }
  | received hf o => exact framerInv_rxDone (registersOk_of_framerInv h) o

/-- Settles O46: a step is a chain of moves, and each of them keeps the invariant. -/
theorem stepKeepsTheInvariant : Obligations.StepKeepsTheInvariant :=
  fun _ _ hs h => step_keeps (P := FramerInv) move_keeps_framerInv hs h

end Sys2Proof.Proofs.Invariant
end

