-- ==== Sys2Proof/Proofs/Instructions.lean ====
section
/-! Facts that follow the instruction: which instruction writes ADDR, RX_COUNT, REQ and TXBUF (10_state.md R23, R32,
R35, R36), and in which state a command word has a step (R27). -/

namespace Sys2Proof.Proofs.Instructions

open Machine Laws FrameEvents

/-! ## Writers of the registers -/

/-- ADDR, RX_COUNT, REQ and TXBUF read as before. -/
structure SameRegisters (s t : State) : Prop where
  addr : t.addr = s.addr
  rxCount : t.rxCount = s.rxCount
  req : t.req = s.req
  txbuf : t.txbuf = s.txbuf

theorem startTransaction_addr (kind : Kind) (fc : Byte) (a b : Word) (s : State) :
    (startTransaction kind fc a b s).addr = s.addr := by
  unfold startTransaction; dsimp only; split <;> rfl

/-- SET_ADDR writes ADDR alone, and only with an operand in range (42_commands.md R170). -/
theorem setAddress_writes (a : Word) (s : State) :
    ((setAddress a s).addr ≠ s.addr →
      s.cfg.addrMin ≤ a.toNat ∧ a.toNat ≤ s.cfg.addrMax ∧ (setAddress a s).addr = BitVec.ofNat 8 a.toNat) ∧
    (setAddress a s).rxCount = s.rxCount ∧ (setAddress a s).req = s.req ∧ (setAddress a s).txbuf = s.txbuf := by
  cases hin : addrInRange s.cfg a with
  | false => rw [setAddress_out hin]; exact ⟨fun h => absurd rfl h, rfl, rfl, rfl⟩
  | true =>
    have hrange : s.cfg.addrMin ≤ a.toNat ∧ a.toNat ≤ s.cfg.addrMax := by simpa [addrInRange] using hin
    have hbyte : loByte a = BitVec.ofNat 8 a.toNat := BitVec.eq_of_toNat_eq (by simp [loByte_toNat])
    rw [setAddress_in hin]
    exact ⟨fun _ => ⟨hrange.1, hrange.2, hbyte⟩, rfl, rfl, rfl⟩

theorem checkCrc_sameRegisters (n : Nat) (g : Frame) (s : State) : SameRegisters s (checkCrc n g s) := by
  unfold checkCrc; dsimp only; split <;> exact ⟨rfl, rfl, rfl, rfl⟩

theorem crcAppendEffect_sameRegisters {n : Nat} {s t : State} (h : crcAppendEffect n s = .next t) :
    SameRegisters s t := by
  rcases crcAppendEffect_cases n s with ⟨_, e⟩ | ⟨_, _, e⟩ | ⟨_, d, _, e⟩ <;> rw [e] at h <;> cases h
  · exact ⟨rfl, rfl, rfl, rfl⟩
  · exact ⟨rfl, rfl, rfl, rfl⟩

theorem crcCheckEffect_sameRegisters {n : Nat} {s t : State} (h : crcCheckEffect n s = .next t) :
    SameRegisters s t := by
  rcases crcCheckEffect_cases n s with ⟨_, e⟩ | ⟨_, _, e⟩ | ⟨_, _, _, e⟩ | ⟨_, _, g, _, e⟩ <;> rw [e] at h <;> cases h
  · exact ⟨rfl, rfl, rfl, rfl⟩
  · exact ⟨rfl, rfl, rfl, rfl⟩
  · exact checkCrc_sameRegisters n g s

theorem illegalCommand_sameRegisters {s t : State} (h : illegalCommand s = .next t) : SameRegisters s t := by
  obtain ⟨-, -, h⟩ := acceptCommand_next.1 h
  cases h
  exact ⟨rfl, rfl, rfl, rfl⟩

theorem transmitted_sameRegisters {f : Frame} {s t : State} (h : transmitted f s = .next t) : SameRegisters s t := by
  obtain ⟨-, -, -, rfl⟩ := transmitted_next.1 h
  exact ⟨rfl, rfl, rfl, rfl⟩

/-- A received frame sets RX_COUNT, in RECV, and none of the other three. -/
theorem received_writes {f : Frame} {s t : State} (h : received f s = .next t) :
    s.fsm = .recv ∧ t.addr = s.addr ∧ t.req = s.req ∧ t.txbuf = s.txbuf := by
  obtain ⟨-, hf, rfl⟩ := received_next.1 h
  cases f <;> exact ⟨hf, rfl, rfl, rfl⟩

/-- What an instruction may do to ADDR, RX_COUNT, REQ and TXBUF. -/
inductive RegisterWrites (s t : State) : Instr → Prop
  | link {i : Instr} (a b : Word) (hi : i = .readRegs a b ∨ i = .writeReg a b) (haddr : t.addr = s.addr) :
    RegisterWrites s t i
  | setAddr (a b : Word) (ht : t = setAddress a (clearStatus s)) : RegisterWrites s t (.setAddr a b)
  | receive {i : Instr} (hf : s.fsm = .recv) (haddr : t.addr = s.addr) (hreq : t.req = s.req)
    (htxbuf : t.txbuf = s.txbuf) : RegisterWrites s t i
  | none {i : Instr} (hsame : SameRegisters s t) : RegisterWrites s t i

theorem registerWrites_received {i : Instr} {f : Frame} {s t : State} (h : received f s = .next t) :
    RegisterWrites s t i := by
  obtain ⟨hf, haddr, hreq, htxbuf⟩ := received_writes h
  exact .receive hf haddr hreq htxbuf

theorem exec_registerWrites {i : Instr} {s t : State} (h : exec i s = .next t) : RegisterWrites s t i := by
  cases i with
  | readRegs a b =>
    obtain ⟨-, -, h⟩ := acceptCommand_next.1 (show execReadRegs a b s = _ from h)
    cases h
    exact .link a b (.inl rfl) (startTransaction_addr ..)
  | writeReg a b =>
    obtain ⟨-, -, h⟩ := acceptCommand_next.1 (show execWriteReg a b s = _ from h)
    cases h
    exact .link a b (.inr rfl) (startTransaction_addr ..)
  | setAddr a b =>
    obtain ⟨-, -, h⟩ := acceptCommand_next.1 (show execSetAddr a b s = _ from h)
    exact .setAddr a b (Host.Outcome.next.inj h).symm
  | getAddr a b =>
    obtain ⟨-, -, h⟩ := acceptCommand_next.1 (show execGetAddr a b s = _ from h)
    cases h
    exact .none ⟨rfl, rfl, rfl, rfl⟩
  | crcAppend n b =>
    obtain ⟨-, -, h⟩ := acceptCommand_next.1 (show execCrcAppend n b s = _ from h)
    obtain ⟨haddr, hcount, hreq, htxbuf⟩ := crcAppendEffect_sameRegisters h
    exact .none ⟨haddr, hcount, hreq, htxbuf⟩
  | crcCheck n b =>
    obtain ⟨-, -, h⟩ := acceptCommand_next.1 (show execCrcCheck n b s = _ from h)
    obtain ⟨haddr, hcount, hreq, htxbuf⟩ := crcCheckEffect_sameRegisters h
    exact .none ⟨haddr, hcount, hreq, htxbuf⟩
  | illegalOp0 | illegalOp7 | illegalOp8 | illegalOp9 | illegalOpA | illegalOpB | illegalOpC | illegalOpD | illegalOpE
  | illegalOpF | illegalRsv => exact .none (illegalCommand_sameRegisters h)
  | frameReadReq | frameWriteReq => exact .none (transmitted_sameRegisters h)
  | frameReadResp | frameWriteEcho | frameException => exact registerWrites_received h

/-- Settles O42: of the four ways an instruction treats the registers, each leaves those it does not write. -/
theorem registersHaveTheirWriters : Obligations.RegistersHaveTheirWriters := by
  intro i s t h
  cases exec_registerWrites h with
  | link a b hi haddr => exact ⟨fun hne => absurd haddr hne, fun _ => .inr ⟨a, b, hi⟩, fun _ => ⟨a, b, hi⟩⟩
  | setAddr a b ht =>
    subst ht
    obtain ⟨haddr, hcount, hreq, htxbuf⟩ := setAddress_writes a (clearStatus s)
    refine ⟨fun hne => ⟨a, b, rfl, haddr hne⟩, fun hne => absurd hcount hne, ?_⟩
    rintro (hne | hne)
    · exact absurd hreq hne
    · exact absurd htxbuf hne
  | receive hf haddr hreq htxbuf =>
    refine ⟨fun hne => absurd haddr hne, fun _ => .inl hf, ?_⟩
    rintro (hne | hne)
    · exact absurd hreq hne
    · exact absurd htxbuf hne
  | none hsame =>
    refine ⟨fun hne => absurd hsame.addr hne, fun hne => absurd hsame.rxCount hne, ?_⟩
    rintro (hne | hne)
    · exact absurd hsame.req hne
    · exact absurd hsame.txbuf hne

/-! ## Where an event has no step -/

/-- The instruction is accepted as a command, and once accepted it does not lack a step. -/
def IsCommand (i : Instr) : Prop :=
  ∃ k : State → StepResult, (∀ s, exec i s = acceptCommand k s) ∧ ∀ s, k s ≠ .fault .noStep

theorem crcAppendEffect_ne_noStep (n : Nat) (s : State) : crcAppendEffect n s ≠ .fault .noStep := by
  rcases crcAppendEffect_cases n s with ⟨_, e⟩ | ⟨_, _, e⟩ | ⟨_, _, _, e⟩ <;> simp [e]

theorem crcCheckEffect_ne_noStep (n : Nat) (s : State) : crcCheckEffect n s ≠ .fault .noStep := by
  rcases crcCheckEffect_cases n s with ⟨_, e⟩ | ⟨_, _, e⟩ | ⟨_, _, _, e⟩ | ⟨_, _, _, _, e⟩ <;> simp [e]

/-- A command that always answers a next state. -/
theorem isCommand_of_next {i : Instr} (g : State → State)
    (h : ∀ s, exec i s = acceptCommand (fun s => .next (g s)) s) : IsCommand i :=
  ⟨_, h, fun _ => nofun⟩

theorem isCommand_illegal {i : Instr} (h : ∀ s, exec i s = illegalCommand s) : IsCommand i :=
  isCommand_of_next (raiseError .illegalCmd 0) h

theorem isCommand_decodeOp (op : BitVec 4) (a b : Word) : IsCommand (decodeOp op a b) := by
  unfold decodeOp
  split
  case h_2 => exact isCommand_of_next (fun s => startTransaction .read s.cfg.fcRead a b s) fun _ => rfl
  case h_3 => exact isCommand_of_next (fun s => startTransaction .write s.cfg.fcWrite a b s) fun _ => rfl
  case h_4 => exact isCommand_of_next (setAddress a) fun _ => rfl
  case h_5 => exact isCommand_of_next (fun s => complete .ok (zext16 s.addr) 0 s) fun _ => rfl
  case h_6 => exact ⟨_, fun _ => rfl, crcAppendEffect_ne_noStep (lengthOf a)⟩
  case h_7 => exact ⟨_, fun _ => rfl, crcCheckEffect_ne_noStep (lengthOf a)⟩
  all_goals exact isCommand_illegal fun _ => rfl

theorem isCommand_decodeCommand (w : CmdWord) : IsCommand (decodeCommand w) := by
  unfold decodeCommand
  split
  · exact isCommand_illegal fun _ => rfl
  · exact isCommand_decodeOp _ _ _

/-- Behind its guard a transition has no step exactly outside its state, or where the transition itself has none. -/
theorem inState_noStep_iff {st : Fsm} {k : State → StepResult} {s : State} (hc : configOk s.cfg = true) :
    inState st k s = .fault .noStep ↔ s.fsm ≠ st ∨ k s = .fault .noStep := by
  by_cases hf : s.fsm = st
  · simp [inState_run hc hf, hf]
  · simp [inState_noStep hc hf, hf]

/-- A transition that always answers a next state has no step exactly outside its state. -/
theorem inState_next_noStep_iff {st : Fsm} {g : State → State} {s : State} (hc : configOk s.cfg = true) :
    inState st (fun s => .next (g s)) s = .fault .noStep ↔ s.fsm ≠ st := by
  simp [inState_noStep_iff hc]

theorem runCommand_noStep_iff (w : CmdWord) {s : State} (hc : configOk s.cfg = true) :
    runCommand w s = .fault .noStep ↔ s.fsm ≠ .idle := by
  obtain ⟨k, hk, hne⟩ := isCommand_decodeCommand w
  rw [runCommand, hk, acceptCommand, inState_noStep_iff hc]
  simp [hne]

theorem hostBufWrite_noStep_iff (i : Word) (v : Byte) {s : State} (hc : configOk s.cfg = true) :
    hostBufWrite i v s = .fault .noStep ↔ s.fsm ≠ .idle ∨ ¬ i.toNat < s.cfg.maxFrame := by
  rw [hostBufWrite, inState_noStep_iff hc]
  split <;> simp [*]

theorem gapElapsed_noStep_iff {s : State} (hc : configOk s.cfg = true) :
    gapElapsed s = .fault .noStep ↔ s.fsm ≠ .gapPre ∧ s.fsm ≠ .gapPost := by
  unfold gapElapsed
  split
  · next hf => simp [hf]
  · next hf => exact (inState_next_noStep_iff hc).trans (by simp [show s.fsm ≠ .gapPost from hf])

theorem fireEvent_noStep_iff (e : Event) {s : State} (hc : configOk s.cfg = true) :
    fireEvent e s = .fault .noStep ↔ eventListed s.cfg s.fsm e = false := by
  cases e with
  | cmd w => exact (runCommand_noStep_iff w hc).trans (by simp [eventListed])
  | hostBufWrite i v => exact (hostBufWrite_noStep_iff i v hc).trans (by simp [eventListed, imp_iff_not_or])
  | gapElapsed => exact (gapElapsed_noStep_iff hc).trans (by simp [eventListed])
  | flushAck => exact (inState_next_noStep_iff hc).trans (by simp [eventListed])
  | txDone o =>
    simp only [fireEvent, txEvent_eq]
    exact (inState_next_noStep_iff hc).trans (by simp [eventListed])
  | rxDone o =>
    simp only [fireEvent, rxEvent_eq]
    exact (inState_next_noStep_iff hc).trans (by simp [eventListed])
  | reset => simp [fireEvent, eventListed]

/-- Settles O37: the step fires the event, and each event's transition is guarded by the states the table lists. -/
theorem eventHasStepExactlyWhereListed : Obligations.EventHasStepExactlyWhereListed := by
  intro s up e rest hc hin
  rw [step_event hc hin, fireEvent_noStep_iff e (s := { s with linkUp := up, inputs := rest, draws := s.draws + 1 }) hc]

end Sys2Proof.Proofs.Instructions
end

