-- ==== Sys2Proof/Proofs/Refinement.lean ====
section
/-! Runs of clock steps do what one event of the link does (10_state.md R28): eight handshakes in SEND are TxDone(OK),
the valid bytes up to `rx_eof` in RECV are RxDone of their frame. -/

namespace Sys2Proof.Proofs.Refinement

open Machine Laws FrameEvents Ports

/-- The state with the input `p` taken off the list and the level of `link_up` it carries: what a clock step does before
the automaton moves, once `tx_recent` is 0. -/
def sampled (p : PortSample) (rest : List Input) (s : State) : State :=
  { s with linkUp := p.linkUp, inputs := rest, draws := s.draws + 1 }

theorem latchSample_sampled {p : PortSample} {rest : List Input} {s : State} (h : s.txRecent = false) :
    latchSample p { s with inputs := rest, draws := s.draws + 1 } = sampled p rest s := by
  simp [latchSample, sampled, h]

/-- The count of the steps after a first one and after all of them. -/
theorem draws_cons (n : Nat) (x : PortSample) (ps : List PortSample) :
    n + (x :: ps).length + 1 = n + 1 + ps.length + 1 := by
  rw [List.length_cons]; omega

/-! ## Sending -/

/-- The number of samples that take a byte. -/
def handshakes (ps : List PortSample) : Nat := (ps.filter (fun x => x.txReady)).length

theorem handshakes_cons_ready {x : PortSample} {ps : List PortSample} (h : x.txReady = true) :
    handshakes (x :: ps) = handshakes ps + 1 := by
  simp [handshakes, h]

theorem handshakes_cons_wait {x : PortSample} {ps : List PortSample} (h : x.txReady = false) :
    handshakes (x :: ps) = handshakes ps := by
  simp [handshakes, h]

theorem handshakes_pos (ps : List PortSample) {p : PortSample} (h : p.txReady = true) : 0 < handshakes (ps ++ [p]) :=
  List.length_pos_of_mem (List.mem_filter.2 ⟨by simp, h⟩)

theorem step_send {p : PortSample} {rest : List Input} {s : State} (hc : configOk s.cfg = true) (hf : s.fsm = .send)
    (hrec : s.txRecent = false) (hr : p.rst = false) (hin : s.inputs = .ports p :: rest) :
    step s = sendSample p (sampled p rest s) := by
  rw [step_ports hc hin, portStep_send (s := { s with inputs := rest, draws := s.draws + 1 }) hr hf,
    latchSample_sampled hrec]

/-- From any `tx_idx`, the handshakes that are left end the transmit. -/
theorem run_send {p : PortSample} {rest : List Input} (hlast : p.txReady = true) (ps : List PortSample) {s : State}
    (hc : configOk s.cfg = true) (hf : s.fsm = .send) (hrec : s.txRecent = false)
    (hok : ∀ x ∈ ps ++ [p], x.rst = false ∧ x.txStatus = 0)
    (hcount : s.txIdx + handshakes (ps ++ [p]) = 8)
    (hin : s.inputs = (ps ++ [p]).map Input.ports ++ rest) :
    Host.Core.run Sys2Proof.core (ps.length + 1) s = .next { s with
      fsm := .gapPost, txRecent := true, txIdx := 8, linkUp := p.linkUp, inputs := rest
      draws := s.draws + ps.length + 1 } := by
  induction ps generalizing s with
  | nil =>
    obtain ⟨hr, hstatus⟩ := hok p (by simp)
    have hidx : s.txIdx + 1 = 8 := by simpa [handshakes, hlast] using hcount
    have hstep : step s = .next (txDone .ok { sampled p rest s with txIdx := s.txIdx + 1 }) :=
      (step_send hc hf hrec hr hin).trans (sendSample_last (s := sampled p rest s) hc hf hstatus hlast hidx.ge)
    rw [hidx] at hstep
    exact (run_succ hstep).trans (run_zero _)
  | cons x ps ih =>
    obtain ⟨hr, hstatus⟩ := hok x (by simp)
    have hok' : ∀ y ∈ ps ++ [p], y.rst = false ∧ y.txStatus = 0 := fun y hy => hok y (List.mem_cons_of_mem x hy)
    have hsend := step_send hc hf hrec hr hin
    rw [draws_cons]
    cases hready : x.txReady with
    | false =>
      have hstep : step s = .next (sampled x ((ps ++ [p]).map Input.ports ++ rest) s) :=
        hsend.trans (sendSample_wait hstatus hready _)
      have hleft : s.txIdx + handshakes (ps ++ [p]) = 8 := by
        rwa [List.cons_append, handshakes_cons_wait hready] at hcount
      exact (run_succ hstep).trans (ih hc hf hrec hok' hleft rfl)
    | true =>
      have hleft : s.txIdx + 1 + handshakes (ps ++ [p]) = 8 := by
        rw [List.cons_append, handshakes_cons_ready hready] at hcount
        omega
      have hmore : 0 < handshakes (ps ++ [p]) := handshakes_pos ps hlast
      have hidx : s.txIdx + 1 < 8 := by omega
      have hstep : step s = .next { sampled x ((ps ++ [p]).map Input.ports ++ rest) s with txIdx := s.txIdx + 1 } :=
        hsend.trans (sendSample_take hstatus hready hidx)
      exact (run_succ hstep).trans (ih hc hf hrec hok' hleft rfl)

/-- Settles O55: the run from `tx_idx` = 0. -/
theorem sendHandshakesRefineTxDone : Obligations.SendHandshakesRefineTxDone := by
  intro s ps p rest hc hf hidx hrec hok hlast hcount hin
  exact run_send hlast ps hc hf hrec hok (by rw [hidx, Nat.zero_add]; exact hcount) hin

/-! ## Receiving -/

theorem step_recv {p : PortSample} {rest : List Input} {s : State} (hc : configOk s.cfg = true) (hf : s.fsm = .recv)
    (hrec : s.txRecent = false) (hr : p.rst = false) (hin : s.inputs = .ports p :: rest) :
    step s = recvSample p (sampled p rest s) := by
  rw [step_ports hc hin, portStep_recv (s := { s with inputs := rest, draws := s.draws + 1 }) hr hf,
    latchSample_sampled hrec]

/-- The valid bytes of a run of samples, in order. -/
def validBytes (ps : List PortSample) : Frame := (ps.filter (fun x => x.rxValid)).map (fun x => x.rxData)

theorem collected_append_validBytes (p : PortSample) (ps : List PortSample) (s : State) :
    collected p s ++ validBytes ps = s.rxacc ++ validBytes (p :: ps) := by
  cases h : p.rxValid <;> simp [collected, validBytes, h]

theorem collected_eq (p : PortSample) (s : State) : collected p s = s.rxacc ++ validBytes [p] := by
  simpa [validBytes] using collected_append_validBytes p [] s

/-- From any `rxacc`, the samples up to `rx_eof` receive it with their valid bytes after it. -/
theorem run_recv {p : PortSample} {rest : List Input} (heof : p.rxEof = true) (ps : List PortSample) {s : State}
    (hc : configOk s.cfg = true) (hf : s.fsm = .recv) (hrec : s.txRecent = false)
    (hok : ∀ x ∈ ps ++ [p], x.rst = false ∧ x.rxStatus = 0) (hmore : ∀ x ∈ ps, x.rxEof = false)
    (hin : s.inputs = (ps ++ [p]).map Input.ports ++ rest) :
    Host.Core.run Sys2Proof.core (ps.length + 1) s =
      .next (rxDone (.frame (s.rxacc ++ validBytes (ps ++ [p]))) { s with
        linkUp := p.linkUp, inputs := rest, rxacc := s.rxacc ++ validBytes (ps ++ [p])
        draws := s.draws + ps.length + 1 }) := by
  induction ps generalizing s with
  | nil =>
    obtain ⟨hr, hstatus⟩ := hok p (by simp)
    have hstep := (step_recv hc hf hrec hr hin).trans (recvSample_eof (s := sampled p rest s) hc hf hstatus heof)
    rw [collected_eq] at hstep
    exact (run_succ hstep).trans (run_zero _)
  | cons x ps ih =>
    obtain ⟨hr, hstatus⟩ := hok x (by simp)
    have hok' : ∀ y ∈ ps ++ [p], y.rst = false ∧ y.rxStatus = 0 := fun y hy => hok y (List.mem_cons_of_mem x hy)
    have hmore' : ∀ y ∈ ps, y.rxEof = false := fun y hy => hmore y (List.mem_cons_of_mem x hy)
    have hstep : step s = .next { sampled x ((ps ++ [p]).map Input.ports ++ rest) s with rxacc := collected x s } :=
      (step_recv hc hf hrec hr hin).trans (recvSample_wait hstatus (hmore x (by simp)) _)
    rw [draws_cons, List.cons_append, ← collected_append_validBytes]
    exact (run_succ hstep).trans (ih hc hf hrec hok' hmore' rfl)

/-- Neither what has been collected nor the draw counter is read or written by the event. -/
theorem rxDone_setRxacc (o : RxOutcome) (acc : Frame) (n : Nat) (s : State) :
    rxDone o { s with rxacc := acc, draws := n } = { rxDone o s with rxacc := acc, draws := n } := by
  unfold rxDone; split <;> rfl

/-- Settles O56: the run from an empty `rxacc`, against the event. -/
theorem receivedBytesRefineRxDone : Obligations.ReceivedBytesRefineRxDone := by
  intro s ps p rest f hc hf hacc hrec hok hmore heof hbytes hin
  have hframe : s.rxacc ++ validBytes (ps ++ [p]) = f := by rw [hacc, hbytes]; rfl
  have hevent := step_event (s := { s with inputs := .event p.linkUp (.rxDone (.frame f)) :: rest }) hc rfl
  have hrun := rxEvent_run (s := { s with linkUp := p.linkUp, inputs := rest, draws := s.draws + 1 }) hc hf (.frame f)
  refine ⟨_, hevent.trans hrun, (run_recv heof ps hc hf hrec hok hmore hin).trans ?_⟩
  rw [hframe, ← rxDone_setRxacc]

end Sys2Proof.Proofs.Refinement
end

