-- ==== Sys2Proof/Proofs/Status.lean ====
section
/-! The STATUS register as a word (10_state.md R30) and the error codes (60_exceptions.md R200). -/

namespace Sys2Proof.Proofs.Status

open Machine Laws

/-! ## The error codes -/

theorem errCode_leftInverse : Function.LeftInverse (fun v => ErrCode.ofNat (BitVec.toNat v)) errCode := by
  intro e; cases e <;> rfl

theorem errCode_lt (e : ErrCode) : (errCode e).toNat < 13 := by
  cases e <;> decide

/-! ## The fields of STATUS -/

theorem status_toNat (s : State) :
    s.status.toNat = s.excCode.toNat * 256 + (errCode s.err).toNat * 16 + (if s.done then 2 else 0) +
      (if s.fsm = .idle then 0 else 1) := by
  have hdone : (BitVec.ofBool s.done).toNat * 2 = if s.done then 2 else 0 := by cases s.done <;> rfl
  have hbusy : (BitVec.ofBool s.busy).toNat = if s.fsm = .idle then 0 else 1 := by
    by_cases h : s.fsm = .idle <;> simp [State.busy, h]
  show BitVec.toNat (s.excCode ++ errCode s.err ++ 0#2 ++ BitVec.ofBool s.done ++ BitVec.ofBool s.busy) = _
  rw [← hdone, ← hbusy]
  simp only [toNat_append_eq, BitVec.toNat_ofNat]
  omega

theorem status_getLsbD (s : State) (i : Nat) :
    s.status.getLsbD i =
      (s.excCode ++ errCode s.err ++ 0#2 ++ BitVec.ofBool s.done ++ BitVec.ofBool s.busy).getLsbD i := rfl

theorem status_getLsbD_zero (s : State) : s.status.getLsbD 0 = s.busy := by
  rw [status_getLsbD, BitVec.getLsbD_append]
  simp

theorem status_getLsbD_one (s : State) : s.status.getLsbD 1 = s.done := by
  rw [status_getLsbD, BitVec.getLsbD_append, BitVec.getLsbD_append]
  simp

/-- Bits 3 and 2 are those of the zero field. -/
theorem status_getLsbD_reserved (s : State) {i : Nat} (h : i = 2 ∨ i = 3) : s.status.getLsbD i = false := by
  simp only [status_getLsbD, BitVec.getLsbD_append]
  rcases h with rfl | rfl <;> simp

/-- The mask takes the two reserved bits alone. -/
theorem status_reserved (s : State) : s.status &&& 0x000C = 0 := by
  refine BitVec.eq_of_getLsbD_eq fun i hi => ?_
  rw [BitVec.getLsbD_and]
  by_cases h : i = 2 ∨ i = 3
  · simp [status_getLsbD_reserved s h]
  · have hmask : (0x000C#16).getLsbD i = false := by interval_cases i <;> simp_all
    simp [hmask]

/-- Settles O48: the number of STATUS, its reserved bits, the codes, and bits 1 and 0 under the invariant. -/
theorem statusWordLayout : Obligations.StatusWordLayout := by
  intro s
  refine ⟨status_toNat s, status_reserved s, errCode_lt s.err, fun e h => errCode_leftInverse.injective h, ?_⟩
  intro hinv h3
  have hbusy : s.busy = true := by
    rw [← status_getLsbD_zero]
    simpa using congrArg (fun v => BitVec.getLsbD v 0) h3
  have hdone : s.done = true := by
    rw [← status_getLsbD_one]
    simpa using congrArg (fun v => BitVec.getLsbD v 1) h3
  have hnot := hinv.busyNotDone (of_decide_eq_true hbusy)
  simp [hdone] at hnot

end Sys2Proof.Proofs.Status
end

