-- ==== Sys2Proof/Proofs/Memory.lean ====
section
/-! The frame buffer at the host's port (20_memory.md R51, R52): what a host read gives in IDLE, what a host write sets,
and what a step in IDLE without a command leaves. -/

namespace Sys2Proof.Proofs.Memory

open Machine Laws FrameEvents Ports Scope

/-! ## Reads -/

theorem hostBufRead_of_read {s : State} {i : Word} {v : Byte} (hf : s.fsm = .idle) (hi : i.toNat < s.cfg.maxFrame)
    (hv : s.buf.read i.toNat = some v) : hostBufRead i s = v := by
  simp [hostBufRead, hf, hi, hv]

theorem hostBufRead_beyond {s : State} {i : Word} (hf : s.fsm = .idle) (hi : s.cfg.maxFrame ≤ i.toNat) :
    hostBufRead i s = 0x00 := by
  simp [hostBufRead, hf, Nat.not_lt.2 hi]

/-- Settles O51: `buf_rdata` is the host's read of BUF. -/
theorem hostReadsBufInIdle : Obligations.HostReadsBufInIdle :=
  fun _ _ hf => ⟨fun _ hi hv => hostBufRead_of_read hf hi hv, fun hi => hostBufRead_beyond hf hi⟩

/-! ## Writes -/

theorem bufWrite_below {i : Nat} {s : State} (hi : i < s.cfg.maxFrame) (v : Byte) :
    bufWrite i v s = { s with buf := s.buf.write i v } := by
  simp [bufWrite, hi]

theorem bufWrite_beyond {i : Nat} {s : State} (hi : s.cfg.maxFrame ≤ i) (v : Byte) : bufWrite i v s = s := by
  simp [bufWrite, Nat.not_lt.2 hi]

theorem read_bufWrite {i : Nat} {s : State} (hi : i < s.cfg.maxFrame) (v : Byte) (j : Nat) :
    (bufWrite i v s).buf.read j = if j = i then some v else s.buf.read j := by
  rw [bufWrite_below hi, read_write]

/-- What the host's buffer port does on a clock step in IDLE. -/
def hostWrite (p : PortSample) (s : State) : State :=
  if p.bufWe then bufWrite p.bufWaddr.toNat p.bufWdata s else s

theorem hostWrite_strobed {p : PortSample} (hwe : p.bufWe = true) (s : State) :
    hostWrite p s = bufWrite p.bufWaddr.toNat p.bufWdata s :=
  if_pos hwe

theorem hostWrite_ignored {p : PortSample} {s : State} (h : p.bufWe = false ∨ s.cfg.maxFrame ≤ p.bufWaddr.toNat) :
    hostWrite p s = s := by
  unfold hostWrite
  split
  · next hwe => exact bufWrite_beyond (h.resolve_left (by simp [hwe])) _
  · rfl

section
variable {p : PortSample} {s : State} (hf : s.fsm = .idle) (hr : p.rst = false)
include hf hr

theorem portStep_command (hcmd : p.cmdValid = true) :
    portStep p s = exec (decodeCommand p.cmdWord) (hostWrite p (latchSample p s)) := by
  rw [portStep_idle hr hf]
  exact if_pos hcmd

theorem portStep_noCommand (hcmd : p.cmdValid = false) : portStep p s = .next (hostWrite p (latchSample p s)) := by
  rw [portStep_idle hr hf]
  exact if_neg (by simp [hcmd])

end

theorem hostBufWrite_run {s : State} {i : Word} (hc : configOk s.cfg = true) (hf : s.fsm = .idle)
    (hi : i.toNat < s.cfg.maxFrame) (v : Byte) : hostBufWrite i v s = .next (bufWrite i.toNat v s) := by
  rw [hostBufWrite, inState_run hc hf, if_pos hi]

theorem step_hostBufWrite {s : State} {up : Bool} {i : Word} {v : Byte} {rest : List Input}
    (hc : configOk s.cfg = true) (hf : s.fsm = .idle) (hi : i.toNat < s.cfg.maxFrame)
    (hin : s.inputs = .event up (.hostBufWrite i v) :: rest) :
    step s = .next (bufWrite i.toNat v { s with linkUp := up, inputs := rest, draws := s.draws + 1 }) :=
  (step_event hc hin).trans
    (hostBufWrite_run (s := { s with linkUp := up, inputs := rest, draws := s.draws + 1 }) hc hf hi v)

/-- While busy no state of the automaton looks at the strobe (20_memory.md R52). -/
theorem portStep_busy_bufWe {s : State} (hf : s.fsm ≠ .idle) (p : PortSample) (we : Bool) :
    portStep { p with bufWe := we } s = portStep p s := by
  by_cases hrst : p.rst = true
  · exact (portStep_rst (p := { p with bufWe := we }) hrst s).trans (portStep_rst hrst s).symm
  · have hr : p.rst = false := eq_false_of_ne_true hrst
    have hr' : { p with bufWe := we }.rst = false := hr
    cases hst : s.fsm with
    | idle => exact absurd hst hf
    | gapPre => rw [portStep_gapPre hr' hst, portStep_gapPre hr hst]; rfl
    | flush => rw [portStep_flush hr' hst, portStep_flush hr hst]; rfl
    | send => rw [portStep_send hr' hst, portStep_send hr hst]; rfl
    | gapPost => rw [portStep_gapPost hr' hst, portStep_gapPost hr hst]; rfl
    | recv => rw [portStep_recv hr' hst, portStep_recv hr hst]; rfl

/-- Settles O52: in IDLE the clock step latches, then takes the host's write, then runs an offered command. -/
theorem hostWritesBufInIdle : Obligations.HostWritesBufInIdle := by
  refine ⟨fun s up i v rest hc hf hi hin => ?event, fun s p hf hr hwe hcmd => ?strobe,
    fun s p hf hr hwe hcmd hi => ?strobeAndCommand, fun s p hf hr hcmd hignored => ?command, fun s p hf => ?busy⟩
  case event =>
    exact ⟨_, step_hostBufWrite hc hf hi hin, rfl,
      read_bufWrite (s := { s with linkUp := up, inputs := rest, draws := s.draws + 1 }) hi v⟩
  case strobe =>
    rw [portStep_noCommand hf hr hcmd, hostWrite_strobed hwe]
    rfl
  case strobeAndCommand =>
    rw [portStep_command hf hr hcmd, hostWrite_strobed hwe, bufWrite_below (s := latchSample p s) hi]
    rfl
  case command =>
    rw [portStep_command hf hr hcmd, hostWrite_ignored (s := latchSample p s) hignored]
    rfl
  case busy => exact (portStep_busy_bufWe hf p true).trans (portStep_busy_bufWe hf p false).symm

/-! ## The results of a command -/

/-- The registers in which the host finds the results of a command (42_commands.md R150), and the automaton, are the
same in both states. -/
structure SameResults (s t : State) : Prop where
  status : t.status = s.status
  result : t.result = s.result
  rxCount : t.rxCount = s.rxCount
  crc : t.crc = s.crc
  addr : t.addr = s.addr
  fsm : t.fsm = s.fsm

theorem bufWrite_sameResults (i : Nat) (v : Byte) (s : State) : SameResults s (bufWrite i v s) :=
  ⟨rfl, rfl, rfl, rfl, rfl, rfl⟩

theorem hostWrite_latchSample_sameResults (p : PortSample) (s : State) :
    SameResults s (hostWrite p (latchSample p s)) := by
  unfold hostWrite
  split <;> exact ⟨rfl, rfl, rfl, rfl, rfl, rfl⟩

theorem fsm_of_inState {st : Fsm} {k : State → StepResult} {s t : State} (h : inState st k s = .next t) : s.fsm = st :=
  (inState_next.1 h).2.1

theorem hostBufWrite_next {i : Word} {v : Byte} {s t : State} (h : hostBufWrite i v s = .next t) :
    t = bufWrite i.toNat v s := by
  obtain ⟨-, -, h⟩ := inState_next.1 h
  split at h <;> cases h
  rfl

/-- Of the events other than a command and reset, the table of 10_state.md R27 lists only a buffer write in IDLE. -/
theorem fireEvent_idle_sameResults {e : Event} {s t : State} (hf : s.fsm = .idle) (hcmd : ∀ w, e ≠ .cmd w)
    (hreset : e ≠ .reset) (h : fireEvent e s = .next t) : SameResults s t := by
  have not_busy {st : Fsm} (hst : s.fsm = st) (hne : st ≠ .idle) : SameResults s t :=
    absurd (hst.symm.trans hf) hne
  cases e with
  | cmd w => exact absurd rfl (hcmd w)
  | reset => exact absurd rfl hreset
  | hostBufWrite i v =>
    rw [hostBufWrite_next h]
    exact bufWrite_sameResults i.toNat v s
  | gapElapsed =>
    simp only [fireEvent, gapElapsed, hf] at h
    exact not_busy (fsm_of_inState h) (by decide)
  | flushAck => exact not_busy (fsm_of_inState (show flushAck s = _ from h)) (by decide)
  | txDone o => exact not_busy (fsm_of_inState ((txEvent_eq o s).symm.trans h)) (by decide)
  | rxDone o => exact not_busy (fsm_of_inState ((rxEvent_eq o s).symm.trans h)) (by decide)

theorem configOk_of_step {s t : State} (h : step s = .next t) : configOk s.cfg = true := by
  by_contra hc
  rw [step_badConfig (eq_false_of_ne_true hc)] at h
  cases h

/-- A step on an input that is no command and no reset, in IDLE. -/
theorem step_idle_sameResults {s t : State} {x : Input} {rest : List Input} (hf : s.fsm = .idle)
    (hin : s.inputs = x :: rest) (hcmd : ∀ up w, x ≠ .event up (.cmd w)) (hreset : ∀ up, x ≠ .event up .reset)
    (hports : ∀ p, x = .ports p → p.rst = false ∧ p.cmdValid = false) (h : step s = .next t) : SameResults s t := by
  have hc := configOk_of_step h
  cases x with
  | event up e =>
    rw [step_event hc hin] at h
    have hcmd' (w : CmdWord) : e ≠ .cmd w := fun he => hcmd up w (he ▸ rfl)
    have hreset' : e ≠ .reset := fun he => hreset up (he ▸ rfl)
    have hsame := fireEvent_idle_sameResults (s := { s with linkUp := up, inputs := rest, draws := s.draws + 1 }) hf
      hcmd' hreset' h
    exact { hsame with }
  | ports p =>
    obtain ⟨hr, hnone⟩ := hports p rfl
    rw [step_ports hc hin, portStep_noCommand (s := { s with inputs := rest, draws := s.draws + 1 }) hf hr hnone] at h
    cases h
    exact { hostWrite_latchSample_sameResults p { s with inputs := rest, draws := s.draws + 1 } with }

/-- Settles O43: such a step fires a buffer write or is a clock step that runs no command. -/
theorem resultsStayUntilTheNextCommand : Obligations.ResultsStayUntilTheNextCommand := by
  intro s t x rest hf hin hcmd hreset hports h
  obtain ⟨hstatus, hresult, hrxCount, hcrc, haddr, hfsm⟩ := step_idle_sameResults hf hin hcmd hreset hports h
  exact ⟨hstatus, hresult, hrxCount, hcrc, haddr, hfsm.trans hf⟩

end Sys2Proof.Proofs.Memory
end

