-- ==== Sys2Proof/Proofs/Decoder.lean ====
section
/-! What the decoder answers, outcome by outcome (30_encoding.md R70 to R80): a command word by its operation code, a
request by its function code, a response by the checks it passes. -/

namespace Sys2Proof.Proofs.Decoder

open Machine Laws FrameEvents

/-! ## Command words -/

theorem encode_decodeOp (c : Config) (op : BitVec 4) (a b : Word) :
    encode c (decodeOp op a b) = .command (encodeCommand 0x0 op a b) := by
  obtain ⟨n⟩ := op
  fin_cases n <;> rfl

theorem decodeOp_wellFormed (c : Config) (op : BitVec 4) (a b : Word) : (decodeOp op a b).wellFormed c = true := by
  unfold decodeOp
  split <;> rfl

/-- A word is the encoding of its reading: rsv ≠ 0 is kept in the operands, rsv = 0 is implied by the operation code. -/
theorem encode_decodeCommand (c : Config) (w : CmdWord) : encode c (decodeCommand w) = .command w := by
  unfold decodeCommand
  split
  · exact congrArg _ (encodeCommand_fields w)
  · next hrsv => rw [encode_decodeOp, ← not_not.1 hrsv, encodeCommand_fields]

theorem decodeCommand_wellFormed (c : Config) (w : CmdWord) : (decodeCommand w).wellFormed c = true := by
  unfold decodeCommand
  split
  · next hrsv => exact decide_eq_true hrsv
  · exact decodeOp_wellFormed c _ _ _

/-! ## Request frames -/

theorem crcOk_withCrc (f : Frame) : crcOk (withCrc f) = true := by
  rw [crcOk_iff]
  simp

theorem decodeRequest_requestFrame (c : Config) (dev fc : Byte) (reg val : Word) :
    decodeRequest c (requestFrame dev fc reg val) =
      if fc = c.fcRead then .ok (.frameReadReq dev reg val)
      else if fc = c.fcWrite then .ok (.frameWriteReq dev reg val)
      else .error .requestCode := by
  have hcrc : crcOk (requestFrame dev fc reg val) = true := crcOk_withCrc _
  have hbytes : requestFrame dev fc reg val =
      [dev, fc, hiByte reg, loByte reg, hiByte val, loByte val] ++
        crcBytes [dev, fc, hiByte reg, loByte reg, hiByte val, loByte val] := rfl
  rw [hbytes] at hcrc ⊢
  simp only [crcBytes, List.cons_append, List.nil_append] at hcrc ⊢
  simp [decodeRequest, hcrc]

theorem wellFormed_of_encode_request {c : Config} {i : Instr} {f : Frame} (h : encode c i = .request f) :
    i.wellFormed c = true := by
  cases i with
  | frameReadReq | frameWriteReq => rfl
  | _ => cases h

/-! ## Response frames: the checks before the CRC, then the bytes before the CRC -/

section
variable {c : Config} {kind : Kind} {f : Frame}

theorem decodeResponse_tooLarge (hcap : responseCap c kind < f.length) :
    decodeResponse c kind f = .error .responseTooLarge :=
  if_pos hcap

theorem decodeResponse_short (hcap : f.length ≤ responseCap c kind) (hmin : f.length < minResp) :
    decodeResponse c kind f = .error .responseShort := by
  simp [decodeResponse, Nat.not_lt.2 hcap, hmin]

theorem decodeResponse_badCrc (hcap : f.length ≤ responseCap c kind) (hmin : minResp ≤ f.length)
    (hcrc : crcOk f = false) : decodeResponse c kind f = .error .badCrc := by
  simp [decodeResponse, Nat.not_lt.2 hcap, Nat.not_lt.2 hmin, hcrc]

theorem decodeResponse_withCrc {body : Frame} (hcap : body.length + 2 ≤ responseCap c kind)
    (hmin : minResp ≤ body.length + 2) : decodeResponse c kind (withCrc body) = decodeResponseBody c kind body := by
  simp [decodeResponse, Nat.not_lt.2 hcap, Nat.not_lt.2 hmin, crcOk_withCrc]

/-- Only a frame with its CRC decodes, and then by the bytes before the CRC. -/
theorem decodeResponse_ok {i : Instr} (h : decodeResponse c kind f = .ok i) :
    ∃ body, f = withCrc body ∧ body.length + 2 ≤ responseCap c kind ∧ decodeResponseBody c kind body = .ok i := by
  unfold decodeResponse at h
  split at h
  · cases h
  · next hcap =>
    split at h
    · cases h
    · split at h
      · cases h
      · next hcrc =>
        have hf := eq_withCrc_of_crcOk (eq_true_of_ne_false hcrc)
        refine ⟨f.take (f.length - 2), hf, ?_, h⟩
        rw [← withCrc_length, ← hf]
        exact Nat.not_lt.1 hcap

end

/-! ## Response frames: the bytes before the CRC -/

/-- The exception variant of a function code is another code: the flag's bits are not the code's (00_scope.md R6). -/
theorem functionCode_ne_exceptionCode {c : Config} (hc : configOk c = true) (kind : Kind) :
    functionCode c kind ≠ exceptionCode c (functionCode c kind) := by
  obtain ⟨-, -, -, -, -, -, hread, hwrite, hflag, -⟩ := (configOk_iff c).1 hc
  have hdisjoint : functionCode c kind &&& c.excFlag = 0 := by cases kind <;> assumption
  intro heq
  apply hflag
  calc c.excFlag = exceptionCode c (functionCode c kind) &&& c.excFlag := by ext; simp +contextual [exceptionCode]
    _ = 0 := by rw [← heq, hdisjoint]

theorem decodeResponseBody_exception (c : Config) (kind : Kind) (dev code : Byte) (rest : Frame) :
    decodeResponseBody c kind (dev :: exceptionCode c (functionCode c kind) :: code :: rest) =
      .ok (.frameException kind dev code rest) :=
  if_pos rfl

theorem decodeResponseBody_otherCode {c : Config} {kind : Kind} {fc : Byte}
    (hexc : fc ≠ exceptionCode c (functionCode c kind)) (hfc : fc ≠ functionCode c kind) (dev x : Byte) (xs : Frame) :
    decodeResponseBody c kind (dev :: fc :: x :: xs) = .error .responseCode := by
  simp [decodeResponseBody, hexc, hfc]

theorem decodeResponseBody_read {c : Config} (hc : configOk c = true) (dev : Byte) {body : Frame} (hne : body ≠ []) :
    decodeResponseBody c .read (dev :: functionCode c .read :: body) = decodeReadBody c dev body := by
  obtain ⟨x, xs, rfl⟩ := List.exists_cons_of_ne_nil hne
  simp [decodeResponseBody, functionCode_ne_exceptionCode hc]

theorem decodeResponseBody_write {c : Config} (hc : configOk c = true) (dev : Byte) {body : Frame} (hne : body ≠ []) :
    decodeResponseBody c .write (dev :: functionCode c .write :: body) = decodeWriteBody dev body := by
  obtain ⟨x, xs, rfl⟩ := List.exists_cons_of_ne_nil hne
  simp [decodeResponseBody, functionCode_ne_exceptionCode hc]

theorem decodeReadBody_append {c : Config} {hdrRest : Frame} (hlen : hdrRest.length + 2 = c.readHdrLen) (dev : Byte)
    (payload : Frame) : decodeReadBody c dev (hdrRest ++ payload) = .ok (.frameReadResp dev hdrRest payload) := by
  simp [decodeReadBody, ← hlen]

theorem decodeReadBody_short {c : Config} {body : Frame} (h : body.length + 2 < c.readHdrLen) (dev : Byte) :
    decodeReadBody c dev body = .error .responseShort :=
  if_pos h

/-- Bytes that are not too few are the rest of a header and a payload. -/
theorem exists_header_payload {c : Config} (hc : configOk c = true) {body : Frame}
    (h : c.readHdrLen ≤ body.length + 2) :
    ∃ hdrRest payload, body = hdrRest ++ payload ∧ hdrRest.length + 2 = c.readHdrLen := by
  obtain ⟨-, -, -, -, -, -, -, -, -, hhdr, -⟩ := (configOk_iff c).1 hc
  refine ⟨body.take (c.readHdrLen - 2), body.drop (c.readHdrLen - 2), (List.take_append_drop _ _).symm, ?_⟩
  rw [List.length_take]
  omega

theorem wellFormed_of_decodeReadBody {c : Config} (hc : configOk c = true) {dev : Byte} {body : Frame} {i : Instr}
    (hcap : body.length + 4 ≤ c.maxFrame) (h : decodeReadBody c dev body = .ok i) : i.wellFormed c = true := by
  rcases Nat.lt_or_ge (body.length + 2) c.readHdrLen with hshort | hlong
  · rw [decodeReadBody_short hshort] at h
    cases h
  · obtain ⟨hdrRest, payload, rfl, hlen⟩ := exists_header_payload hc hlong
    rw [decodeReadBody_append hlen] at h
    cases h
    rw [List.length_append] at hcap
    simp only [Instr.wellFormed, Bool.and_eq_true, decide_eq_true_eq]
    omega

theorem wellFormed_of_decodeWriteBody {c : Config} {dev : Byte} {body : Frame} {i : Instr}
    (h : decodeWriteBody dev body = .ok i) : i.wellFormed c = true := by
  unfold decodeWriteBody at h
  split at h <;> cases h
  rfl

theorem wellFormed_of_decodeResponseBody {c : Config} (hc : configOk c = true) {kind : Kind} {body : Frame} {i : Instr}
    (hcap : body.length + 2 ≤ responseCap c kind) (h : decodeResponseBody c kind body = .ok i) :
    i.wellFormed c = true := by
  unfold decodeResponseBody at h
  split at h
  case h_1 =>
    split at h
    · cases h
      exact decide_eq_true hcap
    · split at h
      · cases h
      · cases kind with
        | read => exact wellFormed_of_decodeReadBody hc hcap h
        | write => exact wellFormed_of_decodeWriteBody h
  case h_2 => cases h

/-! ## Both directions of the round trip -/

theorem decodeResponse_readResponseFrame {c : Config} (hc : configOk c = true) {hdrRest payload : Frame}
    (hlen : hdrRest.length + 2 = c.readHdrLen) (hcap : c.readHdrLen + payload.length + 2 ≤ c.maxFrame) (dev : Byte) :
    decodeResponse c .read (readResponseFrame c dev hdrRest payload) = .ok (.frameReadResp dev hdrRest payload) := by
  obtain ⟨-, -, -, -, -, -, -, -, -, hhdr, -⟩ := (configOk_iff c).1 hc
  have hne : hdrRest ++ payload ≠ [] := by
    rw [← List.length_pos_iff_ne_nil, List.length_append]
    omega
  calc decodeResponse c .read (readResponseFrame c dev hdrRest payload)
      = decodeResponseBody c .read (dev :: functionCode c .read :: (hdrRest ++ payload)) :=
        decodeResponse_withCrc (by simp only [responseCap, List.length_cons, List.length_append]; omega)
          (by simp only [minResp, List.length_cons, List.length_append]; omega)
    _ = decodeReadBody c dev (hdrRest ++ payload) := decodeResponseBody_read hc dev hne
    _ = .ok (.frameReadResp dev hdrRest payload) := decodeReadBody_append hlen dev payload

theorem decodeResponse_writeEcho {c : Config} (hc : configOk c = true) (dev : Byte) (reg val : Word) :
    decodeResponse c .write (requestFrame dev c.fcWrite reg val) = .ok (.frameWriteEcho dev reg val) :=
  calc decodeResponse c .write (requestFrame dev c.fcWrite reg val)
      = decodeResponseBody c .write
          (dev :: functionCode c .write :: [hiByte reg, loByte reg, hiByte val, loByte val]) :=
        decodeResponse_withCrc (by simp [responseCap, requestLen]) (by simp [minResp])
    _ = decodeWriteBody dev [hiByte reg, loByte reg, hiByte val, loByte val] :=
        decodeResponseBody_write hc dev (List.cons_ne_nil _ _)
    _ = .ok (.frameWriteEcho dev reg val) := by simp [decodeWriteBody]

theorem decodeResponse_exceptionFrame {c : Config} {kind : Kind} {rest : Frame}
    (hcap : rest.length + 5 ≤ responseCap c kind) (dev code : Byte) :
    decodeResponse c kind (exceptionFrame c kind dev code rest) = .ok (.frameException kind dev code rest) :=
  calc decodeResponse c kind (exceptionFrame c kind dev code rest)
      = decodeResponseBody c kind (dev :: exceptionCode c (functionCode c kind) :: code :: rest) :=
        decodeResponse_withCrc hcap (by simp [minResp])
    _ = .ok (.frameException kind dev code rest) := decodeResponseBody_exception c kind dev code rest

/-- Settles O14: a command word reads back field by field, a frame by its function code and its length. -/
theorem decodeOfEncode : Obligations.DecodeOfEncode := by
  intro c i hc hw
  cases i with
  | readRegs a b | writeReg a b | setAddr a b | getAddr a b | crcAppend a b | crcCheck a b | illegalOp0 a b
  | illegalOp7 a b | illegalOp8 a b | illegalOp9 a b | illegalOpA a b | illegalOpB a b | illegalOpC a b
  | illegalOpD a b | illegalOpE a b | illegalOpF a b => exact congrArg Except.ok (decodeCommand_rsv0 _ a b)
  | illegalRsv rsv op a b => exact congrArg Except.ok (decodeCommand_rsv (of_decide_eq_true hw) op a b)
  | frameReadReq dev reg count => exact (decodeRequest_requestFrame c dev c.fcRead reg count).trans (if_pos rfl)
  | frameWriteReq dev reg value =>
    obtain ⟨-, -, -, -, -, hcodes, -⟩ := (configOk_iff c).1 hc
    have hread : c.fcWrite ≠ c.fcRead := hcodes.symm
    simp [encode, decode, decodeRequest_requestFrame, hread]
  | frameReadResp dev hdrRest payload =>
    simp only [Instr.wellFormed, Bool.and_eq_true, decide_eq_true_eq] at hw
    obtain ⟨hlen, hcap⟩ := hw
    exact decodeResponse_readResponseFrame hc hlen hcap dev
  | frameWriteEcho dev reg value => exact decodeResponse_writeEcho hc dev reg value
  | frameException kind dev code rest => exact decodeResponse_exceptionFrame (of_decide_eq_true hw) dev code

/-- Settles O15: decoding keeps every field of a word and every byte of a frame, and checks the lengths. -/
theorem encodeOfDecode : Obligations.EncodeOfDecode := by
  intro c e i hc h
  cases e with
  | command w =>
    cases h
    exact ⟨encode_decodeCommand c w, decodeCommand_wellFormed c w⟩
  | request f =>
    have he : encode c i = .request f := encode_of_decodeRequest h
    exact ⟨he, wellFormed_of_encode_request he⟩
  | response kind f =>
    obtain ⟨body, rfl, hcap, hbody⟩ := decodeResponse_ok h
    exact ⟨encode_of_decodeResponseBody hbody, wellFormed_of_decodeResponseBody hc hcap hbody⟩

end Sys2Proof.Proofs.Decoder
end

