-- ==== Sys2Proof/Proofs/Agreement.lean ====
section
/-! The decoder of responses and the validator look at one frame in one order (30_encoding.md R80, 41_framing.md R130):
what each answers, check by check, for a frame of the addressed device. -/

namespace Sys2Proof.Proofs.Agreement

open Machine Laws FrameEvents Decoder

/-- An answer of the decoder and the verdict of the validator on the same response to `q`. -/
inductive Agree (q : Request) : Except DecodeError Instr → Verdict → Prop
  | tooLarge : Agree q (.error .responseTooLarge) (rejects .tooLarge)
  | short : Agree q (.error .responseShort) (rejects .short)
  | badCrc : Agree q (.error .badCrc) (rejects .crcMismatch)
  | otherCode : Agree q (.error .responseCode) (rejects .badOpcode)
  | exception (kind : Kind) (dev code : Byte) (rest : Frame) :
      Agree q (.ok (.frameException kind dev code rest)) (Verdict.mk .deviceException 0 code)
  | read (dev : Byte) (hdrRest payload : Frame) :
      Agree q (.ok (.frameReadResp dev hdrRest payload)) (Verdict.mk .ok (lengthWord payload.length) 0)
  | echo (dev : Byte) :
      Agree q (.ok (.frameWriteEcho dev q.reg q.val)) (Verdict.mk .ok q.val 0)
  | otherEcho (dev : Byte) {reg value : Word} (hne : ¬(reg = q.reg ∧ value = q.val)) :
      Agree q (.ok (.frameWriteEcho dev reg value)) (rejects .echoMismatch)

/-! ## The validator, check by check -/

/-- The checks 1 to 4 of 41_framing.md R130: length, CRC and address. -/
structure PassesChecks (c : Config) (q : Request) (f : Frame) : Prop where
  cap : f.length ≤ responseCap c q.kind
  min : minResp ≤ f.length
  crc : crcOk f = true
  addr : f.getD 0 0 = q.addr

section
variable {c : Config} {q : Request} {f : Frame}

theorem validate_tooLarge (hcap : responseCap c q.kind < f.length) : validate c q f = rejects .tooLarge :=
  if_pos hcap

theorem validate_short (hcap : f.length ≤ responseCap c q.kind) (hmin : f.length < minResp) :
    validate c q f = rejects .short := by
  simp [validate, Nat.not_lt.2 hcap, hmin]

theorem validate_badCrc (hcap : f.length ≤ responseCap c q.kind) (hmin : minResp ≤ f.length)
    (hcrc : crcOk f = false) : validate c q f = rejects .crcMismatch := by
  simp [validate, Nat.not_lt.2 hcap, Nat.not_lt.2 hmin, hcrc]

/-- What is left after the checks 1 to 4: the function code decides, and then the kind of the request. -/
theorem validate_cases (h : PassesChecks c q f) :
    (f.getD 1 0 = exceptionCode c q.fc ∧ validate c q f = Verdict.mk .deviceException 0 (f.getD 2 0)) ∨
    (f.getD 1 0 ≠ exceptionCode c q.fc ∧ f.getD 1 0 ≠ q.fc ∧ validate c q f = rejects .badOpcode) ∨
    (f.getD 1 0 = q.fc ∧ (q.kind = .read → validate c q f = validateRead c f) ∧
      (q.kind = .write → validate c q f = validateEcho q f)) := by
  obtain ⟨hcap, hmin, hcrc, haddr⟩ := h
  rw [validate, if_neg (Nat.not_lt.2 hcap), if_neg (Nat.not_lt.2 hmin), if_neg (ne_false_of_eq_true hcrc),
    if_neg (not_not.2 haddr)]
  split
  · next hexc => exact .inl ⟨hexc, rfl⟩
  · next hexc =>
    split
    · next hfc => exact .inr (.inl ⟨hexc, hfc, rfl⟩)
    · next hfc => exact .inr (.inr ⟨not_not.1 hfc, fun hk => by rw [hk], fun hk => by rw [hk]⟩)

end

/-! ## The two side by side -/

theorem read_agree {c : Config} (hc : configOk c = true) (q : Request) (dev fc : Byte) (body : Frame) :
    Agree q (decodeReadBody c dev body) (validateRead c (withCrc (dev :: fc :: body))) := by
  have hframe : (withCrc (dev :: fc :: body)).length = body.length + 4 := by simp
  rcases Nat.lt_or_ge (body.length + 2) c.readHdrLen with hshort | hlong
  · rw [decodeReadBody_short hshort, validateRead, if_pos (by omega)]
    exact .short
  · obtain ⟨hdrRest, payload, rfl, hlen⟩ := exists_header_payload hc hlong
    have hpayload : (withCrc (dev :: fc :: (hdrRest ++ payload))).length - 2 - c.readHdrLen = payload.length := by
      rw [hframe, List.length_append]
      omega
    rw [decodeReadBody_append hlen, validateRead, if_neg (by omega), hpayload]
    exact .read dev hdrRest payload

/-- The four bytes on the wire are those of `reg` and `val` exactly when they read as `reg` and `val`. -/
theorem bytes_eq_iff (r1 r0 v1 v0 : Byte) (reg val : Word) :
    [r1, r0, v1, v0] = [hiByte reg, loByte reg, hiByte val, loByte val] ↔ wordOf r1 r0 = reg ∧ wordOf v1 v0 = val := by
  constructor
  · intro h
    obtain ⟨rfl, rfl, rfl, rfl⟩ : r1 = hiByte reg ∧ r0 = loByte reg ∧ v1 = hiByte val ∧ v0 = loByte val := by
      simpa using h
    exact ⟨wordOf_hi_lo reg, wordOf_hi_lo val⟩
  · rintro ⟨rfl, rfl⟩
    simp

theorem write_agree (q : Request) (dev fc : Byte) (body : Frame) :
    Agree q (decodeWriteBody dev body) (validateEcho q (withCrc (dev :: fc :: body))) := by
  unfold decodeWriteBody
  split
  case h_1 r1 r0 v1 v0 =>
    have hlen : (withCrc [dev, fc, r1, r0, v1, v0]).length = requestLen := rfl
    have hbytes : ((withCrc [dev, fc, r1, r0, v1, v0]).drop 2).take 4 = [r1, r0, v1, v0] := rfl
    rw [validateEcho, if_neg (not_not.2 hlen), hbytes]
    by_cases hecho : wordOf r1 r0 = q.reg ∧ wordOf v1 v0 = q.val
    · rw [if_neg (not_not.2 ((bytes_eq_iff ..).2 hecho)), hecho.1, hecho.2]
      exact .echo dev
    · rw [if_pos (mt (bytes_eq_iff ..).1 hecho)]
      exact .otherEcho dev hecho
  case h_2 hbody =>
    have hlen : body.length ≠ 4 := by
      intro h
      match body, h with
      | [r1, r0, v1, v0], _ => exact hbody r1 r0 v1 v0 rfl
    rw [validateEcho, if_pos (by simpa [requestLen] using hlen)]
    exact .short

theorem body_agree {c : Config} (hc : configOk c = true) {q : Request} (hq : q.fc = functionCode c q.kind)
    {fc x : Byte} {xs : Frame} (h : PassesChecks c q (withCrc (q.addr :: fc :: x :: xs))) :
    Agree q (decodeResponseBody c q.kind (q.addr :: fc :: x :: xs))
      (validate c q (withCrc (q.addr :: fc :: x :: xs))) := by
  obtain ⟨hfc, hverdict⟩ | ⟨hexc, hfc, hverdict⟩ | ⟨hfc, hread, hwrite⟩ := validate_cases h
  · obtain rfl : fc = exceptionCode c (functionCode c q.kind) := hq ▸ hfc
    rw [hverdict, decodeResponseBody_exception]
    exact .exception q.kind q.addr x xs
  · rw [hverdict, decodeResponseBody_otherCode (hq ▸ hexc) (hq ▸ hfc)]
    exact .otherCode
  · obtain rfl : fc = functionCode c q.kind := hq ▸ hfc
    cases hk : q.kind with
    | read =>
      rw [hk] at hread
      rw [hread rfl, decodeResponseBody_read hc q.addr (List.cons_ne_nil x xs)]
      exact read_agree hc q q.addr _ (x :: xs)
    | write =>
      rw [hk] at hwrite
      rw [hwrite rfl, decodeResponseBody_write hc q.addr (List.cons_ne_nil x xs)]
      exact write_agree q q.addr _ (x :: xs)

/-- A frame with a good CRC and at least `MIN_RESP` bytes, by its first three bytes. -/
theorem exists_body {f : Frame} (hmin : minResp ≤ f.length) (hcrc : crcOk f = true) :
    ∃ fc x xs, f = withCrc (f.getD 0 0 :: fc :: x :: xs) := by
  have hf := eq_withCrc_of_crcOk hcrc
  match f, hmin, hf with
  | dev :: fc :: x :: y :: z :: rest, _, hf => exact ⟨fc, x, (y :: z :: rest).take rest.length, hf⟩

theorem response_agree {c : Config} (hc : configOk c = true) {q : Request} (hq : q.fc = functionCode c q.kind)
    {f : Frame} (haddr : f.getD 0 0 = q.addr) : Agree q (decodeResponse c q.kind f) (validate c q f) := by
  rcases Nat.lt_or_ge (responseCap c q.kind) f.length with hlarge | hcap
  · rw [decodeResponse_tooLarge hlarge, validate_tooLarge hlarge]
    exact .tooLarge
  rcases Nat.lt_or_ge f.length minResp with hshort | hmin
  · rw [decodeResponse_short hcap hshort, validate_short hcap hshort]
    exact .short
  cases hcrc : crcOk f with
  | false =>
    rw [decodeResponse_badCrc hcap hmin hcrc, validate_badCrc hcap hmin hcrc]
    exact .badCrc
  | true =>
    have hchecks : PassesChecks c q f := ⟨hcap, hmin, hcrc, haddr⟩
    obtain ⟨fc, x, xs, hf⟩ := exists_body hmin hcrc
    rw [haddr] at hf
    subst hf
    rw [withCrc_length] at hcap hmin
    rw [decodeResponse_withCrc hcap hmin]
    exact body_agree hc hq hchecks

/-- Settles O13: check by check the two agree. -/
theorem decoderAgreesWithValidator : Obligations.DecoderAgreesWithValidator := by
  intro c q f hc hq haddr
  have h : Agree q (decode c (.response q.kind f)) (validate c q f) := response_agree hc hq haddr
  generalize decode c (.response q.kind f) = answer, validate c q f = verdict at h ⊢
  cases h with
  | tooLarge | short | badCrc | otherCode | exception | read => rfl
  | echo dev => exact (if_pos ⟨rfl, rfl⟩).symm
  | otherEcho dev hne => exact (if_neg hne).symm

end Sys2Proof.Proofs.Agreement
end

