-- ==== Sys2Proof/Proofs/Assembler.lean ====
section
/-! The words of the assembler and of the table of examples (30_encoding.md R85, R87), read back by the decoder. -/

namespace Sys2Proof.Proofs.Assembler

open Machine Laws

theorem asmNumber_of_lt {n : Nat} (h : n < 2 ^ 16) : asmNumber n = some (BitVec.ofNat 16 n) := if_pos h

theorem asmNumber_of_le {n : Nat} (h : 2 ^ 16 ≤ n) : asmNumber n = none := if_neg (Nat.not_lt.2 h)

/-- What is assembled has rsv = 0, so the decoder reads it by its operation code. -/
theorem asmWord_decodes (op : BitVec 4) {a b : Nat} (ha : a < 2 ^ 16) (hb : b < 2 ^ 16) :
    ∃ w, asmWord op a b = some w ∧ decodeCommand w = decodeOp op (BitVec.ofNat 16 a) (BitVec.ofNat 16 b) := by
  refine ⟨encodeCommand 0x0 op (BitVec.ofNat 16 a) (BitVec.ofNat 16 b), ?_, decodeCommand_rsv0 op _ _⟩
  rw [asmWord, asmNumber_of_lt ha, asmNumber_of_lt hb]

theorem asmWord_largeA (op : BitVec 4) {a : Nat} (ha : 2 ^ 16 ≤ a) (b : Nat) : asmWord op a b = none := by
  simp [asmWord, asmNumber_of_le ha]

theorem asmWord_largeB (op : BitVec 4) (a : Nat) {b : Nat} (hb : 2 ^ 16 ≤ b) : asmWord op a b = none := by
  simp [asmWord, asmNumber_of_le hb]

theorem assemble_cmd (w : CmdWord) : assemble (.cmd w.toNat) = some w := by
  rw [assemble, if_pos w.isLt, BitVec.ofNat_toNat, BitVec.setWidth_eq]

/-- Settles O17: every line but `.cmd` assembles through `asmWord`, which refuses either operand that is too large. -/
theorem assembledWordsDecode : Obligations.AssembledWordsDecode := by
  have zero_lt : 0 < 2 ^ 16 := by decide
  refine ⟨fun a b ha hb => ?_, fun a b ha => ?_, assemble_cmd, fun n hn => if_neg (Nat.not_lt.2 hn)⟩
  · exact ⟨asmWord_decodes 0x1 ha hb, asmWord_decodes 0x2 ha hb, asmWord_decodes 0x3 ha zero_lt,
      asmWord_decodes 0x4 zero_lt zero_lt, asmWord_decodes 0x5 ha zero_lt, asmWord_decodes 0x6 ha zero_lt⟩
  · exact ⟨asmWord_largeA 0x1 ha b, asmWord_largeB 0x1 b ha, asmWord_largeA 0x2 ha b, asmWord_largeB 0x2 b ha,
      asmWord_largeA 0x3 ha 0, asmWord_largeA 0x5 ha 0, asmWord_largeA 0x6 ha 0⟩

/-- Settles O16: each word is `encodeCommand` of its fields, the last one with rsv = 1. -/
theorem exampleWordsDecode : Obligations.ExampleWordsDecode :=
  ⟨decodeCommand_rsv0 0x1 0x0300 2, decodeCommand_rsv0 0x1 0x0000 1, decodeCommand_rsv0 0x2 0x010E 1,
    decodeCommand_rsv0 0x2 0x0110 12345, decodeCommand_rsv0 0x3 5 0, decodeCommand_rsv0 0x3 0 0,
    decodeCommand_rsv0 0x3 248 0, decodeCommand_rsv0 0x4 0 0, decodeCommand_rsv0 0x5 6 0, decodeCommand_rsv0 0x6 8 0,
    decodeCommand_rsv0 0x7 0 0, decodeCommand_rsv (rsv := 1) (by decide) 1 0 0⟩

end Sys2Proof.Proofs.Assembler
end

