-- ==== Sys2Proof/Proofs/Crc.lean ====
section
/-! The CRC as a function of byte strings (40_crc.md R100 to R105): the step is injective in the register and in the
byte, so a change of one byte of the data reaches the final value. -/

namespace Sys2Proof.Proofs.Crc

open Machine Laws FrameEvents Decoder Agreement

/-! ## The step is injective -/

/-- The shift brings 0 in at bit 15 and the polynomial has it set, so bit 15 remembers the bit that was shifted out. -/
theorem crcShift_getLsbD_top (c : Word) : (crcShift c).getLsbD 15 = c.getLsbD 0 := by
  have hshift : (c >>> 1).getLsbD 15 = false := by simp
  have hpoly : crcPoly.getLsbD 15 = true := rfl
  unfold crcShift
  split
  · next h => rw [BitVec.getLsbD_xor, hshift, hpoly, h, Bool.false_xor]
  · next h => rw [hshift, eq_false_of_ne_true h]

theorem eq_of_shiftRight_one_eq {x y : Word} (hbit : x.getLsbD 0 = y.getLsbD 0) (hrest : x >>> 1 = y >>> 1) :
    x = y := by
  refine BitVec.eq_of_getLsbD_eq fun i _ => ?_
  cases i with
  | zero => exact hbit
  | succ i =>
    have := congrArg (fun v => v.getLsbD i) hrest
    simpa [BitVec.getLsbD_ushiftRight, Nat.add_comm 1 i] using this

theorem crcShift_injective : Function.Injective crcShift := by
  intro x y h
  have hbit : x.getLsbD 0 = y.getLsbD 0 := by rw [← crcShift_getLsbD_top x, h, crcShift_getLsbD_top]
  refine eq_of_shiftRight_one_eq hbit ?_
  unfold crcShift at h
  rw [hbit] at h
  split at h
  · exact (BitVec.xor_left_inj _).1 h
  · exact h

theorem crcShifts_eq_iterate (n : Nat) (c : Word) : crcShifts n c = crcShift^[n] c := by
  induction n generalizing c with
  | zero => rfl
  | succ n ih => exact ih _

theorem crcShifts_injective (n : Nat) : Function.Injective (crcShifts n) := by
  rw [show crcShifts n = crcShift^[n] from funext (crcShifts_eq_iterate n)]
  exact crcShift_injective.iterate n

theorem crcStep_injective_register (b : Byte) : Function.Injective (fun c => crcStep c b) :=
  fun _ _ h => (BitVec.xor_left_inj _).1 (crcShifts_injective 8 h)

theorem loByte_zext16 (b : Byte) : loByte (zext16 b) = b := by
  have := b.isLt
  apply BitVec.eq_of_toNat_eq
  rw [loByte_toNat, zext16, BitVec.toNat_setWidth]
  omega

theorem crcStep_injective_byte (c : Word) : Function.Injective (crcStep c) := by
  intro b b' h
  have hzext : zext16 b = zext16 b' := (BitVec.xor_right_inj _).1 (crcShifts_injective 8 h)
  rw [← loByte_zext16 b, hzext, loByte_zext16]

theorem crcFrom_injective_register (f : Frame) : Function.Injective (fun c => crcFrom c f) := by
  induction f with
  | nil => exact fun _ _ h => h
  | cons b f ih => exact ih.comp (crcStep_injective_register b)

/-- Setting a byte of the data keeps the CRC only if it sets the byte that stood there. -/
theorem eq_getD_of_crcFrom_set_eq {c : Word} {f : Frame} {i : Nat} {v : Byte} (hi : i < f.length)
    (h : crcFrom c (f.set i v) = crcFrom c f) : v = f.getD i 0 := by
  induction f generalizing c i with
  | nil => cases hi
  | cons b f ih =>
    cases i with
    | zero => exact crcStep_injective_byte c (crcFrom_injective_register f h)
    | succ i => exact ih (Nat.lt_of_succ_lt_succ hi) h

/-! ## The check -/

/-- A string that ends in two given bytes passes exactly when they are the CRC bytes of the rest. -/
theorem crcOk_append_iff (f : Frame) (h l : Byte) :
    crcOk (f ++ [h, l]) = true ↔ h = hiByte (crc16 f) ∧ l = loByte (crc16 f) := by
  simp [crcOk_iff, crcBytes]

theorem crcOk_append_crcBytes_iff (f g : Frame) : crcOk (f ++ crcBytes g) = true ↔ crc16 g = crc16 f := by
  rw [crcBytes, crcOk_append_iff]
  exact ⟨fun ⟨hhi, hlo⟩ => word_ext hhi hlo, fun h => by simp [h]⟩

/-- Of the strings withCrc(f) with one byte set, only withCrc(f) itself passes the check. -/
theorem eq_getD_of_crcOk_set {f : Frame} {i : Nat} {v : Byte} (hi : i < f.length + 2)
    (h : crcOk ((withCrc f).set i v) = true) : v = (withCrc f).getD i 0 := by
  unfold withCrc at h ⊢
  rcases Nat.lt_or_ge i f.length with hdata | hcrc
  · rw [List.set_append_left _ _ hdata, crcOk_append_crcBytes_iff] at h
    rw [List.getD_append _ _ _ _ hdata]
    exact eq_getD_of_crcFrom_set_eq hdata h.symm
  · rw [List.set_append_right _ _ hcrc] at h
    rw [List.getD_append_right _ _ _ _ hcrc]
    obtain hfirst | hsecond : i - f.length = 0 ∨ i - f.length = 1 := by omega
    · rw [hfirst] at h ⊢
      exact ((crcOk_append_iff f _ _).1 h).1
    · rw [hsecond] at h ⊢
      exact ((crcOk_append_iff f _ _).1 h).2

theorem crcOk_set_eq_false {f : Frame} {i : Nat} {v : Byte} (hi : i < f.length + 2) (hv : v ≠ (withCrc f).getD i 0) :
    crcOk ((withCrc f).set i v) = false :=
  eq_false_of_ne_true fun h => hv (eq_getD_of_crcOk_set hi h)

/-- Settles O4: in the data the CRC differs, in the CRC bytes the comparison does. -/
theorem crcSingleByteCorruptionDetected : Obligations.CrcSingleByteCorruptionDetected :=
  fun _ _ _ hi hv => crcOk_set_eq_false hi hv

/-- Settles O5: what passes is the bytes before the last two, with their CRC. -/
theorem crcCheckAcceptsExactlyAppended : Obligations.CrcCheckAcceptsExactlyAppended := by
  intro g
  constructor
  · exact fun h => ⟨g.take (g.length - 2), eq_withCrc_of_crcOk h⟩
  · rintro ⟨f, rfl⟩
    exact crcOk_withCrc f

theorem crcOk_lowByteFirst {f : Frame} (hne : hiByte (crc16 f) ≠ loByte (crc16 f)) :
    crcOk (f ++ [loByte (crc16 f), hiByte (crc16 f)]) = false :=
  eq_false_of_ne_true fun h => hne ((crcOk_append_iff _ _ _).1 h).1.symm

/-- Settles O6: the last byte but one is not the high byte, so check 3 of 41_framing.md R130 fails. -/
theorem lowByteFirstCrcRejected : Obligations.LowByteFirstCrcRejected := by
  intro c q f hne
  refine ⟨crcOk_lowByteFirst hne, fun hmin hcap => ?_⟩
  rw [validate_badCrc (by simpa using hcap) (by simpa [minResp] using hmin) (crcOk_lowByteFirst hne)]
  rfl

/-- Settles O1: `crcShifts` is the iterate of `crcShift`. -/
theorem crcStepIsEightShifts : Obligations.CrcStepIsEightShifts :=
  fun c b => ⟨crcShifts_eq_iterate 8 (c ^^^ zext16 b), rfl, rfl⟩

/-- Settles O2: the CRC of a concatenation goes on from its first part; the check value is computed. -/
theorem crcIsTheFoldFromTheSeed : Obligations.CrcIsTheFoldFromTheSeed :=
  ⟨rfl, fun f b => crcFrom_append crcSeed f [b], by decide +kernel⟩

/-- Settles O3: the round trip of appending and checking. -/
theorem crcRoundTrip : Obligations.CrcRoundTrip :=
  fun f => ⟨crcOk_withCrc f, withCrc_length f, withCrc_take f⟩

end Sys2Proof.Proofs.Crc
end

