-- ==== Sys2Proof/Proofs/CrcCommands.lean ====
section
/-! CRC_APPEND and CRC_CHECK (40_crc.md R110, R111): the outcome of each, by what its checks find, and the two run one
after the other. -/

namespace Sys2Proof.Proofs.CrcCommands

open Machine Laws Decoder Crc

/-! ## Frames in the buffer -/

theorem readRange_write_end {m : Memory} {n : Nat} {f : Frame} (h : m.readRange 0 n = some f) (v : Byte) :
    (m.write n v).readRange 0 (n + 1) = some (f ++ [v]) := by
  obtain ⟨rfl, hread⟩ := readRange_eq_some.1 h
  refine readRange_eq_some.2 ⟨by simp, fun j hj => ?_⟩
  rw [Nat.zero_add, read_write]
  split
  · next hlast => simp [hlast]
  · next hbefore =>
    have hlt : j < f.length := by omega
    rw [List.getD_append _ _ _ _ hlt, ← hread j hlt, Nat.zero_add]

theorem readRange_write {m : Memory} {n i : Nat} {f : Frame} (h : m.readRange 0 n = some f) (hi : i < n) (v : Byte) :
    (m.write i v).readRange 0 n = some (f.set i v) := by
  obtain ⟨rfl, hread⟩ := readRange_eq_some.1 h
  refine readRange_eq_some.2 ⟨by simp, fun j hj => ?_⟩
  rw [Nat.zero_add, read_write]
  split
  · next hsame => simp [hsame, hi]
  · next hother =>
    rw [← Nat.zero_add j, hread j hj]
    simp [Ne.symm hother]

/-- The data read back with the two bytes written after it. -/
theorem readRange_withCrc {m : Memory} {n : Nat} {d : Frame} (h : m.readRange 0 n = some d) :
    ((m.write n (hiByte (crc16 d))).write (n + 1) (loByte (crc16 d))).readRange 0 (n + 2) = some (withCrc d) := by
  rw [readRange_write_end (readRange_write_end h _), withCrc, crcBytes, List.append_assoc, List.singleton_append]

/-- The hypotheses of the statements, cell by cell, as one read. -/
theorem readRange_of_cells {m : Memory} {n : Nat} {f : Frame} (hlen : f.length = n)
    (h : ∀ j, j < n → m.read j = some (f.getD j 0)) : m.readRange 0 n = some f :=
  readRange_eq_some.2 ⟨hlen, fun j hj => by rw [Nat.zero_add, h j hj]⟩

theorem readRange_of_emptyCell {m : Memory} {n : Nat} (h : ∃ j, j < n ∧ m.read j = none) : m.readRange 0 n = none :=
  readRange_eq_none.2 (by simpa using h)

/-! ## Completion in IDLE -/

theorem complete_ok_idle {s : State} {r : Word} (hf : s.fsm = .idle) :
    complete .ok r 0 s = { s with done := true, err := .ok, excCode := 0, result := r } := by
  simp [complete, ← hf]

theorem raiseError_idle {s : State} {e : ErrCode} (hf : s.fsm = .idle) :
    raiseError e 0 s = { s with done := true, err := e, excCode := 0, result := 0 } := by
  simp [raiseError, complete, ← hf]

/-! ## CRC_APPEND -/

theorem bufWrite_bufWrite {i j : Nat} {s : State} (hi : i < s.cfg.maxFrame) (hj : j < s.cfg.maxFrame) (v w : Byte) :
    bufWrite j w (bufWrite i v s) = { s with buf := (s.buf.write i v).write j w } := by
  rw [Proofs.Memory.bufWrite_below hi]
  exact Proofs.Memory.bufWrite_below (s := { s with buf := s.buf.write i v }) hj w

theorem appendCrc_eq {n : Nat} {s : State} (d : Frame) (hf : s.fsm = .idle) (hn : n + 2 ≤ s.cfg.maxFrame) :
    appendCrc n d s = { s with
      done := true, err := .ok, excCode := 0, result := lengthWord (n + 2), crc := crc16 d
      buf := (s.buf.write n (hiByte (crc16 d))).write (n + 1) (loByte (crc16 d)) } := by
  rw [appendCrc, bufWrite_bufWrite (by omega) (by omega)]
  exact complete_ok_idle hf

theorem crcAppendEffect_tooLarge {n : Nat} {s : State} (hn : s.cfg.maxFrame < n + 2) :
    crcAppendEffect n s = .next (raiseError .tooLarge 0 s) :=
  if_pos hn

theorem crcAppendEffect_unwritten {n : Nat} {s : State} (hn : n + 2 ≤ s.cfg.maxFrame)
    (hr : s.buf.readRange 0 n = none) : crcAppendEffect n s = .fault (.unwrittenCell .crcAppend) := by
  rw [crcAppendEffect, if_neg (Nat.not_lt.2 hn), hr]

theorem crcAppendEffect_data {n : Nat} {s : State} {d : Frame} (hn : n + 2 ≤ s.cfg.maxFrame)
    (hr : s.buf.readRange 0 n = some d) : crcAppendEffect n s = .next (appendCrc n d s) := by
  rw [crcAppendEffect, if_neg (Nat.not_lt.2 hn), hr]

theorem exec_crcAppend_run {s : State} (hc : configOk s.cfg = true) (hf : s.fsm = .idle) (n b : Word) :
    exec (.crcAppend n b) s = crcAppendEffect n.toNat (clearStatus s) :=
  acceptCommand_run hc hf

/-- Settles O21: the three outcomes of CRC_APPEND, by the length and by the cells before it. -/
theorem crcAppendEffect : Obligations.CrcAppendEffect := by
  intro s n b hc hf
  have hrun := exec_crcAppend_run hc hf n b
  refine ⟨decodeCommand_rsv0 0x5 n b, fun hn => ?tooLarge, fun d hn hlen hcells => ?data, fun hn hempty => ?unwritten⟩
  case tooLarge =>
    rw [hrun, crcAppendEffect_tooLarge (s := clearStatus s) hn]
    exact congrArg _ (raiseError_idle hf)
  case data =>
    rw [hrun, crcAppendEffect_data (s := clearStatus s) hn (readRange_of_cells hlen hcells)]
    exact congrArg _ (appendCrc_eq d hf hn)
  case unwritten => exact hrun.trans (crcAppendEffect_unwritten hn (readRange_of_emptyCell hempty))

/-- What a successful CRC_APPEND found and left. -/
structure Appended (n : Word) (d : Frame) (s t : State) : Prop where
  config : configOk s.cfg = true
  room : n.toNat + 2 ≤ s.cfg.maxFrame
  data : s.buf.readRange 0 n.toNat = some d
  after : t = { s with
    done := true, err := .ok, excCode := 0, result := lengthWord (n.toNat + 2), crc := crc16 d
    buf := (s.buf.write n.toNat (hiByte (crc16 d))).write (n.toNat + 1) (loByte (crc16 d)) }
  idle : t.fsm = .idle

theorem exists_appended {s t : State} {n b : Word} (h : exec (.crcAppend n b) s = .next t) (hok : t.err = .ok) :
    ∃ d, Appended n d s t := by
  obtain ⟨hc, hf, h⟩ := acceptCommand_next.1 (show execCrcAppend n b s = _ from h)
  obtain ⟨-, e⟩ | ⟨-, -, e⟩ | ⟨hn, d, hd, e⟩ := crcAppendEffect_cases (lengthOf n) (clearStatus s) <;> rw [e] at h <;>
    cases h
  · cases hok
  · exact ⟨d, hc, hn, hd, appendCrc_eq d hf hn, rfl⟩

/-- Settles O22: the two writes are at n and n + 1, and no other cell is written. -/
theorem crcAppendStoresOnlyTheCrcBytes : Obligations.CrcAppendStoresOnlyTheCrcBytes := by
  intro s t n b h hok
  obtain ⟨d, -, -, -, rfl, -⟩ := exists_appended h hok
  refine ⟨?_, read_write_same _ _ _, fun a hhi hlo => ?_⟩
  · rw [read_write_other _ _ (by omega), read_write_same]
  · rw [read_write_other _ _ hlo, read_write_other _ _ hhi]

/-! ## CRC_CHECK -/

theorem checkCrc_ok {g : Frame} (h : crcOk g = true) (n : Nat) (s : State) :
    checkCrc n g s = complete .ok (lengthWord (n - 2)) 0 { s with crc := crc16 (g.take (n - 2)) } :=
  if_pos h

theorem checkCrc_mismatch {g : Frame} (h : crcOk g = false) (n : Nat) (s : State) :
    checkCrc n g s = raiseError .crcMismatch 0 { s with crc := crc16 (g.take (n - 2)) } :=
  if_neg (ne_true_of_eq_false h)

theorem crcCheckEffect_tooLarge {n : Nat} {s : State} (hn : s.cfg.maxFrame < n) :
    crcCheckEffect n s = .next (raiseError .tooLarge 0 s) :=
  if_pos hn

theorem crcCheckEffect_short {n : Nat} {s : State} (hcap : n ≤ s.cfg.maxFrame) (hn : n < 2) :
    crcCheckEffect n s = .next (raiseError .short 0 s) := by
  rw [crcCheckEffect, if_neg (Nat.not_lt.2 hcap), if_pos hn]

theorem crcCheckEffect_unwritten {n : Nat} {s : State} (hcap : n ≤ s.cfg.maxFrame) (hmin : 2 ≤ n)
    (hr : s.buf.readRange 0 n = none) : crcCheckEffect n s = .fault (.unwrittenCell .crcCheck) := by
  rw [crcCheckEffect, if_neg (Nat.not_lt.2 hcap), if_neg (Nat.not_lt.2 hmin), hr]

theorem crcCheckEffect_frame {n : Nat} {s : State} {g : Frame} (hcap : n ≤ s.cfg.maxFrame) (hmin : 2 ≤ n)
    (hr : s.buf.readRange 0 n = some g) : crcCheckEffect n s = .next (checkCrc n g s) := by
  rw [crcCheckEffect, if_neg (Nat.not_lt.2 hcap), if_neg (Nat.not_lt.2 hmin), hr]

theorem exec_crcCheck_run {s : State} (hc : configOk s.cfg = true) (hf : s.fsm = .idle) (n b : Word) :
    exec (.crcCheck n b) s = crcCheckEffect n.toNat (clearStatus s) :=
  acceptCommand_run hc hf

theorem checkCrc_append_eq {s : State} {n : Nat} {d : Frame} (h l : Byte) (hf : s.fsm = .idle)
    (hlen : d.length + 2 = n) :
    checkCrc n (d ++ [h, l]) s =
      if h = hiByte (crc16 d) ∧ l = loByte (crc16 d) then
        { s with done := true, err := .ok, excCode := 0, result := lengthWord (n - 2), crc := crc16 d }
      else { s with done := true, err := .crcMismatch, excCode := 0, result := 0, crc := crc16 d } := by
  have hdata : (d ++ [h, l]).take (n - 2) = d := List.take_left' (by omega)
  split
  · next hmatch =>
    rw [checkCrc_ok ((crcOk_append_iff d h l).2 hmatch), hdata]
    exact complete_ok_idle hf
  · next hdiffer =>
    rw [checkCrc_mismatch (eq_false_of_ne_true (mt (crcOk_append_iff d h l).1 hdiffer)), hdata]
    exact raiseError_idle hf

/-- Settles O23: the outcomes of CRC_CHECK in the order of its checks. MAX_FRAME is at least 8 (00_scope.md R6), so a
length below 2 is not too large. -/
theorem crcCheckEffect : Obligations.CrcCheckEffect := by
  intro s n b hc hf
  obtain ⟨-, -, -, hmaxFrame, -⟩ := (configOk_iff s.cfg).1 hc
  have hrun := exec_crcCheck_run hc hf n b
  refine ⟨decodeCommand_rsv0 0x6 n b, fun hn => ?tooLarge, fun hn => ?short, fun d h l hcap hlen hcells => ?frame,
    fun hcap hmin hempty => ?unwritten⟩
  case tooLarge =>
    rw [hrun, crcCheckEffect_tooLarge (s := clearStatus s) hn]
    exact congrArg _ (raiseError_idle hf)
  case short =>
    have hcap : n.toNat ≤ s.cfg.maxFrame := by omega
    rw [hrun, crcCheckEffect_short (s := clearStatus s) hcap hn]
    exact congrArg _ (raiseError_idle hf)
  case frame =>
    have hread : s.buf.readRange 0 n.toNat = some (d ++ [h, l]) := readRange_of_cells (by simpa using hlen) hcells
    rw [hrun, crcCheckEffect_frame (s := clearStatus s) hcap (by omega) hread]
    exact congrArg _ (checkCrc_append_eq h l hf hlen)
  case unwritten => exact hrun.trans (crcCheckEffect_unwritten hcap hmin (readRange_of_emptyCell hempty))

/-! ## CRC_APPEND and then CRC_CHECK -/

section
variable {s t : State} {k : Word} {d : Frame} (h : Appended k d s t)
include h

/-- MAX_FRAME fits in 16 bits (00_scope.md R6), so the length of the frame does not wrap. -/
theorem Appended.toNat_add_two : (k + 2).toNat = k.toNat + 2 := by
  obtain ⟨-, -, -, -, hmax, -⟩ := (configOk_iff s.cfg).1 h.config
  have hroom := h.room
  rw [BitVec.toNat_add]
  exact Nat.mod_eq_of_lt (show k.toNat + 2 < 2 ^ 16 by omega)

theorem Appended.cfg : t.cfg = s.cfg := by rw [h.after]

theorem Appended.length : d.length = k.toNat := (readRange_eq_some.1 h.data).1

theorem Appended.frame : t.buf.readRange 0 (k.toNat + 2) = some (withCrc d) := by
  rw [h.after]
  exact readRange_withCrc h.data

/-- CRC_CHECK over a buffer that holds `g` in the place of the frame that was appended to. -/
theorem Appended.exec_crcCheck {m : Memory} {g : Frame} (hread : m.readRange 0 (k.toNat + 2) = some g) (b : Word) :
    exec (.crcCheck (k + 2) b) { t with buf := m } =
      .next (checkCrc (k.toNat + 2) g (clearStatus { t with buf := m })) := by
  have hc : configOk t.cfg = true := h.cfg ▸ h.config
  have hcap : k.toNat + 2 ≤ t.cfg.maxFrame := h.cfg ▸ h.room
  rw [exec_crcCheck_run (s := { t with buf := m }) hc h.idle, h.toNat_add_two]
  exact crcCheckEffect_frame hcap (by omega) hread

end

/-- Settles O24: the buffer holds the data with its CRC, and the registers hold what the check computes. -/
theorem appendThenCheckSucceeds : Obligations.AppendThenCheckSucceeds := by
  intro s t k b b' h hok
  obtain ⟨d, h⟩ := exists_appended h hok
  have hcheck := h.exec_crcCheck h.frame b'
  have hdata : (withCrc d).take (k.toNat + 2 - 2) = d := h.length ▸ withCrc_take d
  have hresult : lengthWord (k.toNat + 2 - 2) = k := by simp [lengthWord]
  have hcomplete : complete .ok k 0 { clearStatus t with crc := crc16 d } = { t with
      done := true, err := .ok, excCode := 0, result := k, crc := crc16 d } := complete_ok_idle h.idle
  rw [checkCrc_ok (crcOk_withCrc d), hdata, hresult] at hcheck
  rw [hcheck, hcomplete, h.after]

/-- Settles O25: the buffer holds the data with its CRC and one byte changed. -/
theorem corruptionAfterAppendDetected : Obligations.CorruptionAfterAppendDetected := by
  intro s t k b b' i v h hok hi hv
  obtain ⟨d, h⟩ := exists_appended h hok
  obtain ⟨hlen, hcells⟩ := readRange_eq_some.1 h.frame
  have hbyte : v ≠ (withCrc d).getD i 0 := by
    rintro rfl
    exact hv (by simpa using hcells i hi)
  have hbad : crcOk ((withCrc d).set i v) = false := crcOk_set_eq_false (h.length ▸ hi) hbyte
  have hcheck := h.exec_crcCheck (readRange_write h.frame hi v) b'
  rw [checkCrc_mismatch hbad] at hcheck
  exact ⟨_, hcheck, rfl, rfl, rfl, rfl, rfl⟩

end Sys2Proof.Proofs.CrcCommands
end

