-- ==== Sys2Proof/Proofs/Validator.lean ====
section
/-! The request encoder and the response validator (41_framing.md R120, R130 to R134): the verdict of each check, and on
exactly which frames the validator answers OK or DEVICE_EXCEPTION. -/

namespace Sys2Proof.Proofs.Validator

open Machine Laws FrameEvents Decoder Agreement

/-! ## The request encoder -/

theorem encodeReq_take_six (q : Request) :
    (encodeReq q).take 6 = [q.addr, q.fc, hiByte q.reg, loByte q.reg, hiByte q.val, loByte q.val] := rfl

/-- Settles O7: each field is read back from its bytes; the kind is not among them. -/
theorem requestEncoderLosesNoBit : Obligations.RequestEncoderLosesNoBit := by
  refine fun q => ⟨rfl, crcOk_withCrc _, fun q' h => ?_⟩
  rw [encodeReq_take_six, encodeReq_take_six] at h
  obtain ⟨haddr, hfc, hregHi, hregLo, hvalHi, hvalLo⟩ :
      q'.addr = q.addr ∧ q'.fc = q.fc ∧ hiByte q'.reg = hiByte q.reg ∧ loByte q'.reg = loByte q.reg ∧
        hiByte q'.val = hiByte q.val ∧ loByte q'.val = loByte q.val := by
    simpa using h
  exact ⟨haddr, hfc, word_ext hregHi hregLo, word_ext hvalHi hvalLo⟩

/-- A string of 8 bytes with a good CRC is the request whose fields its first six bytes are. -/
theorem eq_requestFrame {f : Frame} {dev fc : Byte} {reg val : Word} (hlen : f.length = requestLen)
    (hcrc : crcOk f = true) (hdev : f.getD 0 0 = dev) (hfc : f.getD 1 0 = fc)
    (hbody : (f.drop 2).take 4 = [hiByte reg, loByte reg, hiByte val, loByte val]) :
    f = requestFrame dev fc reg val := by
  have hf := eq_withCrc_of_crcOk hcrc
  match f, hlen with
  | [b0, b1, b2, b3, b4, b5, _, _], _ =>
    have hdata : [b0, b1, b2, b3, b4, b5] = [dev, fc, hiByte reg, loByte reg, hiByte val, loByte val] :=
      congrArg₂ List.cons hdev (congrArg₂ List.cons hfc hbody)
    exact hf.trans (congrArg withCrc hdata)

/-! ## The verdict of each check -/

theorem responseCap_eq (c : Config) (kind : Kind) : responseCap c kind = if kind = .read then c.maxFrame else 8 := by
  cases kind <;> rfl

section
variable {c : Config} {q : Request} {f : Frame}

theorem validate_addrMismatch (hcap : f.length ≤ responseCap c q.kind) (hmin : minResp ≤ f.length)
    (hcrc : crcOk f = true) (haddr : f.getD 0 0 ≠ q.addr) : validate c q f = rejects .addrMismatch := by
  rw [validate, if_neg (Nat.not_lt.2 hcap), if_neg (Nat.not_lt.2 hmin), if_neg (ne_false_of_eq_true hcrc),
    if_pos haddr]

theorem validate_exception (h : PassesChecks c q f) (hexc : f.getD 1 0 = exceptionCode c q.fc) :
    validate c q f = Verdict.mk .deviceException 0 (f.getD 2 0) := by
  rw [validate, if_neg (Nat.not_lt.2 h.cap), if_neg (Nat.not_lt.2 h.min), if_neg (ne_false_of_eq_true h.crc),
    if_neg (not_not.2 h.addr), if_pos hexc]

theorem validate_badOpcode (h : PassesChecks c q f) (hexc : f.getD 1 0 ≠ exceptionCode c q.fc)
    (hfc : f.getD 1 0 ≠ q.fc) : validate c q f = rejects .badOpcode := by
  obtain ⟨hexc', -⟩ | ⟨-, -, hverdict⟩ | ⟨hfc', -⟩ := validate_cases h
  · exact absurd hexc' hexc
  · exact hverdict
  · exact absurd hfc' hfc

/-- Past check 6 the kind of the request decides. -/
theorem validate_normal (h : PassesChecks c q f) (hexc : f.getD 1 0 ≠ exceptionCode c q.fc)
    (hfc : f.getD 1 0 = q.fc) :
    (q.kind = .read → validate c q f = validateRead c f) ∧ (q.kind = .write → validate c q f = validateEcho q f) := by
  obtain ⟨hexc', -⟩ | ⟨-, hfc', -⟩ | ⟨-, hkinds⟩ := validate_cases h
  · exact absurd hexc' hexc
  · exact absurd hfc hfc'
  · exact hkinds

theorem validateRead_short (hlen : f.length < c.readHdrLen + 2) : validateRead c f = rejects .short :=
  if_pos hlen

theorem validateRead_ok (hlen : c.readHdrLen + 2 ≤ f.length) :
    validateRead c f = Verdict.mk .ok (lengthWord (f.length - 2 - c.readHdrLen)) 0 :=
  if_neg (Nat.not_lt.2 hlen)

theorem validateEcho_short (hlen : f.length ≠ requestLen) : validateEcho q f = rejects .short :=
  if_pos hlen

theorem validateEcho_mismatch (hlen : f.length = requestLen)
    (hbody : (f.drop 2).take 4 ≠ [hiByte q.reg, loByte q.reg, hiByte q.val, loByte q.val]) :
    validateEcho q f = rejects .echoMismatch := by
  rw [validateEcho, if_neg (not_not.2 hlen), if_pos hbody]

theorem validateEcho_ok (hlen : f.length = requestLen)
    (hbody : (f.drop 2).take 4 = [hiByte q.reg, loByte q.reg, hiByte q.val, loByte q.val]) :
    validateEcho q f = Verdict.mk .ok q.val 0 := by
  rw [validateEcho, if_neg (not_not.2 hlen), if_neg (not_not.2 hbody)]

end

/-- Settles O8: the verdict of each check, under the earlier ones. -/
theorem validatorOrder : Obligations.ValidatorOrder := by
  intro c q f
  rw [← responseCap_eq]
  refine ⟨validate_tooLarge, fun hcap => ⟨validate_short hcap, fun hmin => ⟨validate_badCrc hcap hmin, fun hcrc =>
    ⟨validate_addrMismatch hcap hmin hcrc, fun haddr => ?_⟩⟩⟩⟩
  have hchecks : PassesChecks c q f := ⟨hcap, hmin, hcrc, haddr⟩
  refine ⟨validate_exception hchecks, fun hexc => ⟨validate_badOpcode hchecks hexc, fun hfc => ?_⟩⟩
  obtain ⟨hread, hwrite⟩ := validate_normal hchecks hexc hfc
  constructor
  · intro hk
    rw [hwrite hk]
    exact ⟨validateEcho_short, fun hlen => ⟨validateEcho_mismatch hlen, validateEcho_ok hlen⟩⟩
  · intro hk
    rw [hread hk]
    exact ⟨validateRead_short, validateRead_ok⟩

/-! ## On which frames a verdict is given -/

section
variable {c : Config} {q : Request} {f : Frame}

/-- OK and DEVICE_EXCEPTION are verdicts of the checks after the length, the CRC and the address. -/
theorem passesChecks_of_err (h : (validate c q f).err = .ok ∨ (validate c q f).err = .deviceException) :
    PassesChecks c q f := by
  rcases Nat.lt_or_ge (responseCap c q.kind) f.length with hlarge | hcap
  · rw [validate_tooLarge hlarge] at h
    exact absurd h (by decide)
  rcases Nat.lt_or_ge f.length minResp with hshort | hmin
  · rw [validate_short hcap hshort] at h
    exact absurd h (by decide)
  cases hcrc : crcOk f with
  | false =>
    rw [validate_badCrc hcap hmin hcrc] at h
    exact absurd h (by decide)
  | true =>
    by_cases haddr : f.getD 0 0 = q.addr
    · exact ⟨hcap, hmin, hcrc, haddr⟩
    · rw [validate_addrMismatch hcap hmin hcrc haddr] at h
      exact absurd h (by decide)

theorem validateRead_err_eq_ok_iff : (validateRead c f).err = .ok ↔ c.readHdrLen + 2 ≤ f.length := by
  rcases Nat.lt_or_ge f.length (c.readHdrLen + 2) with hshort | hlong
  · simp [validateRead_short hshort, rejects, hshort]
  · simp [validateRead_ok hlong, hlong]

theorem validateEcho_err_eq_ok_iff :
    (validateEcho q f).err = .ok ↔
      f.length = requestLen ∧ (f.drop 2).take 4 = [hiByte q.reg, loByte q.reg, hiByte q.val, loByte q.val] := by
  by_cases hlen : f.length = requestLen
  · by_cases hbody : (f.drop 2).take 4 = [hiByte q.reg, loByte q.reg, hiByte q.val, loByte q.val]
    · simp [validateEcho_ok hlen hbody, hlen, hbody]
    · simp [validateEcho_mismatch hlen hbody, rejects, hbody]
  · simp [validateEcho_short hlen, rejects, hlen]

theorem validateRead_err_ne_deviceException : (validateRead c f).err ≠ .deviceException := by
  unfold validateRead
  split <;> exact ErrCode.noConfusion

theorem validateEcho_err_ne_deviceException : (validateEcho q f).err ≠ .deviceException := by
  unfold validateEcho
  split
  · exact ErrCode.noConfusion
  · split <;> exact ErrCode.noConfusion

theorem validate_err_eq_deviceException_iff :
    (validate c q f).err = .deviceException ↔ PassesChecks c q f ∧ f.getD 1 0 = exceptionCode c q.fc := by
  constructor
  · intro h
    have hchecks := passesChecks_of_err (.inr h)
    obtain ⟨hexc, -⟩ | ⟨-, -, hverdict⟩ | ⟨-, hread, hwrite⟩ := validate_cases hchecks
    · exact ⟨hchecks, hexc⟩
    · rw [hverdict] at h
      exact absurd h (by decide)
    · cases hk : q.kind with
      | read => exact absurd (hread hk ▸ h) validateRead_err_ne_deviceException
      | write => exact absurd (hwrite hk ▸ h) validateEcho_err_ne_deviceException
  · rintro ⟨hchecks, hexc⟩
    rw [validate_exception hchecks hexc]

theorem code_of_err_ok (h : (validate c q f).err = .ok) : f.getD 1 0 = q.fc := by
  obtain ⟨-, hverdict⟩ | ⟨-, -, hverdict⟩ | ⟨hfc, -⟩ := validate_cases (passesChecks_of_err (.inl h))
  · rw [hverdict] at h
    cases h
  · rw [hverdict] at h
    cases h
  · exact hfc

/-- The request's own code is not its exception variant (00_scope.md R6). -/
theorem code_ne_exceptionCode (hc : configOk c = true) (hq : q.fc = functionCode c q.kind) (hfc : f.getD 1 0 = q.fc) :
    f.getD 1 0 ≠ exceptionCode c q.fc := by
  rw [hfc, hq]
  exact functionCode_ne_exceptionCode hc q.kind

/-- An answer OK, by the checks and by what the kind of the request asks. -/
theorem validate_err_eq_ok_iff (hc : configOk c = true) (hq : q.fc = functionCode c q.kind) :
    (validate c q f).err = .ok ↔
      PassesChecks c q f ∧ f.getD 1 0 = q.fc ∧ (q.kind = .read → (validateRead c f).err = .ok) ∧
        (q.kind = .write → (validateEcho q f).err = .ok) := by
  constructor
  · intro h
    have hchecks := passesChecks_of_err (.inl h)
    have hfc := code_of_err_ok h
    obtain ⟨hread, hwrite⟩ := validate_normal hchecks (code_ne_exceptionCode hc hq hfc) hfc
    exact ⟨hchecks, hfc, fun hk => hread hk ▸ h, fun hk => hwrite hk ▸ h⟩
  · rintro ⟨hchecks, hfc, hreadOk, hwriteOk⟩
    obtain ⟨hread, hwrite⟩ := validate_normal hchecks (code_ne_exceptionCode hc hq hfc) hfc
    cases hk : q.kind with
    | read => rw [hread hk, hreadOk hk]
    | write => rw [hwrite hk, hwriteOk hk]

end

/-- Settles O11: past the checks 1 to 4, byte 1 decides. -/
theorem deviceExceptionRecognised : Obligations.DeviceExceptionRecognised := by
  intro c q f
  have hcapEq : responseCap c q.kind = if q.kind = .write then 8 else c.maxFrame := by cases q.kind <;> rfl
  rw [← hcapEq]
  constructor
  · rw [validate_err_eq_deviceException_iff]
    constructor
    · rintro ⟨⟨hcap, hmin, hcrc, haddr⟩, hexc⟩
      exact ⟨hmin, hcap, hcrc, haddr, hexc⟩
    · rintro ⟨hmin, hcap, hcrc, haddr, hexc⟩
      exact ⟨⟨hcap, hmin, hcrc, haddr⟩, hexc⟩
  · intro h
    obtain ⟨hchecks, hexc⟩ := validate_err_eq_deviceException_iff.1 h
    exact validate_exception hchecks hexc

/-- Settles O10: check 7r asks for a header and a CRC, and MAX_FRAME fits in 16 bits (00_scope.md R6). -/
theorem readSucceedsExactlyOnReadFrames : Obligations.ReadSucceedsExactlyOnReadFrames := by
  intro c q f hc hk hfcRead
  obtain ⟨-, -, -, -, hmax, -, -, -, -, hhdr, -⟩ := (configOk_iff c).1 hc
  have hq : q.fc = functionCode c q.kind := by rw [hk, hfcRead, functionCode]
  have hcapEq : responseCap c q.kind = c.maxFrame := by rw [hk, responseCap]
  constructor
  · rw [validate_err_eq_ok_iff hc hq]
    constructor
    · rintro ⟨⟨hcap, -, hcrc, haddr⟩, hfc, hread, -⟩
      exact ⟨validateRead_err_eq_ok_iff.1 (hread hk), hcapEq ▸ hcap, hcrc, haddr, hfc.trans hfcRead⟩
    · rintro ⟨hlen, hcap, hcrc, haddr, hfc⟩
      have hmin : minResp ≤ f.length := by rw [minResp]; omega
      exact ⟨⟨hcapEq ▸ hcap, hmin, hcrc, haddr⟩, hfc.trans hfcRead.symm, fun _ => validateRead_err_eq_ok_iff.2 hlen,
        fun hk' => absurd (hk.symm.trans hk') (by decide)⟩
  · intro h
    obtain ⟨hchecks, hfc, hreadOk, -⟩ := (validate_err_eq_ok_iff hc hq).1 h
    have hcap : f.length ≤ c.maxFrame := hcapEq ▸ hchecks.cap
    rw [(validate_normal hchecks (code_ne_exceptionCode hc hq hfc) hfc).1 hk,
      validateRead_ok (validateRead_err_eq_ok_iff.1 (hreadOk hk))]
    exact Nat.mod_eq_of_lt (show f.length - 2 - c.readHdrLen < 2 ^ 16 by omega)

/-! ## The verdict on a response of the table -/

section
variable {c : Config} {q : Request} (hc : configOk c = true) (hq : q.fc = functionCode c q.kind)
include hc hq

/-- A normal read response of the addressed device is OK, whatever its header and its payload hold. -/
theorem validate_readResponseFrame (hk : q.kind = .read) {hdrRest payload : Frame}
    (hlen : hdrRest.length + 2 = c.readHdrLen) (hcap : c.readHdrLen + payload.length + 2 ≤ c.maxFrame) :
    validate c q (readResponseFrame c q.addr hdrRest payload) = Verdict.mk .ok (lengthWord payload.length) 0 := by
  have h := response_agree hc hq (f := readResponseFrame c q.addr hdrRest payload) rfl
  rw [hk, decodeResponse_readResponseFrame hc hlen hcap] at h
  generalize validate c q _ = verdict at h ⊢
  cases h
  rfl

/-- A normal write response of the addressed device is OK exactly on the register and the value of the request. -/
theorem validate_writeEcho (hk : q.kind = .write) (reg val : Word) :
    validate c q (requestFrame q.addr c.fcWrite reg val) =
      if reg = q.reg ∧ val = q.val then Verdict.mk .ok q.val 0 else rejects .echoMismatch := by
  have h := response_agree hc hq (f := requestFrame q.addr c.fcWrite reg val) rfl
  rw [hk, decodeResponse_writeEcho hc] at h
  generalize validate c q _ = verdict at h ⊢
  cases h with
  | echo => exact (if_pos ⟨rfl, rfl⟩).symm
  | otherEcho _ hne => exact (if_neg hne).symm

/-- An exception response of the addressed device, whatever follows its code. -/
theorem validate_exceptionFrame {rest : Frame} (hcap : rest.length + 5 ≤ responseCap c q.kind) (code : Byte) :
    validate c q (exceptionFrame c q.kind q.addr code rest) = Verdict.mk .deviceException 0 code := by
  have h := response_agree hc hq (f := exceptionFrame c q.kind q.addr code rest) rfl
  rw [decodeResponse_exceptionFrame hcap] at h
  generalize validate c q _ = verdict at h ⊢
  cases h
  rfl

end

/-- Settles O12: the verdict on a response of the table has only its payload's length or its code. -/
theorem validatorDoesNotCheck : Obligations.ValidatorDoesNotCheck := by
  intro c q hc hq
  refine ⟨fun hdrRest payload hk hlen hcap => validate_readResponseFrame hc hq hk hlen hcap, fun code rest hcap => ?_⟩
  have h := validate_exceptionFrame hc hq hcap code
  rwa [exceptionFrame, ← hq] at h

/-- Settles O9: the checks leave no byte of the echo free. -/
theorem writeSucceedsExactlyOnTheEcho : Obligations.WriteSucceedsExactlyOnTheEcho := by
  intro c q f hc hk hfcWrite
  have hq : q.fc = functionCode c q.kind := by rw [hk, hfcWrite, functionCode]
  have hecho : validate c q (encodeReq q) = Verdict.mk .ok q.val 0 := by
    rw [encodeReq, hfcWrite, validate_writeEcho hc hq hk, if_pos ⟨rfl, rfl⟩]
  refine ⟨⟨fun h => ?_, ?_⟩, by rw [hecho]⟩
  · obtain ⟨⟨-, -, hcrc, haddr⟩, hfc, -, hwrite⟩ := (validate_err_eq_ok_iff hc hq).1 h
    obtain ⟨hlen, hbody⟩ := validateEcho_err_eq_ok_iff.1 (hwrite hk)
    exact eq_requestFrame hlen hcrc haddr hfc hbody
  · rintro rfl
    rw [hecho]

end Sys2Proof.Proofs.Validator
end

