-- ==== Sys2Proof/Proofs/Responses.lean ====
section
/-! The reception of a response frame (41_framing.md R140, 42_commands.md R159): the frame is stored, and its verdict
completes the command. -/

namespace Sys2Proof.Proofs.Responses

open Machine Laws FrameEvents Agreement Validator

/-! ## The store of a frame -/

/-- The bytes of a frame that fit stand in BUF from cell 0 on; every other cell is as before. -/
theorem receiveFrame_read (f : Frame) (s : State) (j : Nat) :
    (receiveFrame f s).buf.read j = if j < min f.length s.cfg.maxFrame then some (f.getD j 0) else s.buf.read j := by
  have hlen : (f.take s.cfg.maxFrame).length = min f.length s.cfg.maxFrame := by rw [List.length_take, min_comm]
  rw [receiveFrame_buf, read_writeFrom, hlen]
  by_cases hj : j < min f.length s.cfg.maxFrame
  · rw [if_pos (by omega), if_pos hj]
    have hmax : j < s.cfg.maxFrame := by omega
    simp [List.getD_eq_getElem?_getD, hmax]
  · rw [if_neg (by omega), if_neg hj]

/-- MAX_FRAME fits in 16 bits (00_scope.md R6), so no count wraps. -/
theorem receiveFrame_rxCount_toNat {s : State} (hc : configOk s.cfg = true) (f : Frame) :
    (receiveFrame f s).rxCount.toNat = min f.length s.cfg.maxFrame := by
  obtain ⟨-, -, -, -, hmax, -⟩ := (configOk_iff s.cfg).1 hc
  exact Nat.mod_eq_of_lt (show min f.length s.cfg.maxFrame < 2 ^ 16 by omega)

theorem responseCap_le_maxFrame {c : Config} (hc : configOk c = true) (kind : Kind) :
    responseCap c kind ≤ c.maxFrame := by
  obtain ⟨-, -, -, hmax, -⟩ := (configOk_iff c).1 hc
  cases kind with
  | read => exact le_rfl
  | write => exact hmax

theorem receiveFrame_tooLarge {s : State} (hc : configOk s.cfg = true) {f : Frame} (hlen : s.cfg.maxFrame < f.length) :
    (receiveFrame f s).err = .tooLarge := by
  rw [receiveFrame_err, validate_tooLarge ((responseCap_le_maxFrame hc s.req.kind).trans_lt hlen)]
  rfl

/-- The step that takes a frame from the link is its reception, whatever the frame decodes to. -/
theorem step_rxFrame {s : State} {up : Bool} {rest : List Input} {f : Frame} (hc : configOk s.cfg = true)
    (hf : s.fsm = .recv) (hne : f ≠ []) (hin : s.inputs = .event up (.rxDone (.frame f)) :: rest) :
    step s = .next (receiveFrame f { s with linkUp := up, inputs := rest, draws := s.draws + 1 }) := by
  rw [step_event hc hin, ← rxDone_frame hne]
  exact rxEvent_run (s := { s with linkUp := up, inputs := rest, draws := s.draws + 1 }) hc hf (.frame f)

/-- Settles O36: the step is the reception of the frame, and the reception stores it before the verdict. -/
theorem receivedFrameIsStored : Obligations.ReceivedFrameIsStored :=
  fun _ _ _ f hc hf hne hin =>
    ⟨_, step_rxFrame hc hf hne hin, receiveFrame_rxCount_toNat hc f, receiveFrame_tooLarge hc, receiveFrame_read f _⟩

/-! ## The completion of a command -/

/-- The state after a response `f` of `n` bytes that fits in BUF and has the verdict `v`. -/
structure Completed (f : Frame) (n : Nat) (v : Verdict) (s t : State) : Prop where
  after : t = { s with
    fsm := .idle, done := true, err := v.err, excCode := if v.err = .deviceException then v.excCode else 0
    result := if v.err = .ok then v.result else 0, rxCount := lengthWord n, buf := t.buf }
  stored : ∀ j, j < n → t.buf.read j = some (f.getD j 0)
  kept : ∀ j, n ≤ j → t.buf.read j = s.buf.read j

theorem receiveFrame_completed {s : State} {f : Frame} {n : Nat} (hlen : f.length = n) (hfit : n ≤ s.cfg.maxFrame) :
    Completed f n (validate s.cfg s.req f) s (receiveFrame f s) := by
  have hcount : min f.length s.cfg.maxFrame = n := by rw [hlen, min_eq_left hfit]
  constructor
  case after =>
    have hrxCount : (receiveFrame f s).rxCount = lengthWord n := by rw [receiveFrame_rxCount, hcount]
    rw [← hrxCount]
    rfl
  case stored => exact fun j hj => by rw [receiveFrame_read, hcount, if_pos hj]
  case kept => exact fun j hj => by rw [receiveFrame_read, hcount, if_neg (Nat.not_lt.2 hj)]

/-- In RECV a response that fits in BUF completes the command with its verdict. -/
theorem received_completed {s : State} {body : Frame} {n : Nat} {v : Verdict} (hc : configOk s.cfg = true)
    (hf : s.fsm = .recv) (hlen : (withCrc body).length = n) (hfit : n ≤ s.cfg.maxFrame)
    (hv : validate s.cfg s.req (withCrc body) = v) :
    ∃ t, received (withCrc body) s = .next t ∧ Completed (withCrc body) n v s t := by
  refine ⟨receiveFrame (withCrc body) s, received_next.2 ⟨hc, hf, ?_⟩, hv ▸ receiveFrame_completed hlen hfit⟩
  rw [rxDone_frame (withCrc_ne_nil body)]

theorem readResponseFrame_payload {c : Config} {hdrRest payload : Frame} (hlen : hdrRest.length + 2 = c.readHdrLen)
    (dev : Byte) {j : Nat} (hj : j < payload.length) :
    (readResponseFrame c dev hdrRest payload).getD (c.readHdrLen + j) 0 = payload.getD j 0 := by
  have hsplit : readResponseFrame c dev hdrRest payload =
      (dev :: c.fcRead :: hdrRest) ++ (payload ++ crcBytes (dev :: c.fcRead :: (hdrRest ++ payload))) := by
    simp [readResponseFrame, withCrc]
  have hheader : (dev :: c.fcRead :: hdrRest).length = c.readHdrLen := hlen
  rw [hsplit, List.getD_append_right _ _ _ _ (by omega), hheader, Nat.add_sub_cancel_left,
    List.getD_append _ _ _ _ hj]

/-- Settles O28: the frame is OK with its payload's length, and the payload follows the header. -/
theorem readResponseCompletesRead : Obligations.ReadResponseCompletesRead := by
  intro s hdrRest payload hc hf hk hfc hlen hcap
  have hq : s.req.fc = functionCode s.cfg s.req.kind := by rw [hk, hfc, functionCode]
  have hframe : (readResponseFrame s.cfg s.req.addr hdrRest payload).length = s.cfg.readHdrLen + payload.length + 2 := by
    rw [readResponseFrame_length]
    omega
  obtain ⟨t, hrun, hafter, hstored, hkept⟩ :=
    received_completed hc hf hframe hcap (validate_readResponseFrame hc hq hk hlen hcap)
  refine ⟨t, hrun, hafter, hstored, fun j hj => ?_, hkept⟩
  rw [hstored _ (by omega)]
  exact congrArg some (readResponseFrame_payload hlen s.req.addr hj)

/-- Settles O29: the echo agrees with the request or it does not. -/
theorem writeEchoCompletesWrite : Obligations.WriteEchoCompletesWrite := by
  intro s reg val hc hf hk hfc
  have hq : s.req.fc = functionCode s.cfg s.req.kind := by rw [hk, hfc, functionCode]
  obtain ⟨-, -, -, hmax, -⟩ := (configOk_iff s.cfg).1 hc
  obtain ⟨t, hrun, hafter, hstored, hkept⟩ := received_completed hc hf (requestFrame_length ..) hmax
    (validate_writeEcho hc hq hk reg val)
  refine ⟨t, hrun, hafter.trans ?_, hstored, hkept⟩
  by_cases hecho : reg = s.req.reg ∧ val = s.req.val
  · simp only [if_pos hecho]
    rw [hecho.2]
    rfl
  · simp only [if_neg hecho]
    rfl

/-- Settles O30: the verdict carries the code, and no result. -/
theorem exceptionResponseCompletes : Obligations.ExceptionResponseCompletes := by
  intro s code rest hc hf hq hcap
  have hfit : rest.length + 5 ≤ s.cfg.maxFrame := hcap.trans (responseCap_le_maxFrame hc s.req.kind)
  obtain ⟨t, hrun, hafter, hstored, hkept⟩ := received_completed hc hf (exceptionFrame_length ..) hfit
    (validate_exceptionFrame hc hq hcap code)
  rw [← hq] at hstored
  exact ⟨t, hrun, hafter, hstored, hkept⟩

end Sys2Proof.Proofs.Responses
end

