-- ==== Sys2Proof/Proofs/Commands.lean ====
section
/-! The commands that complete or start at their acceptance (42_commands.md R152, R170, R171, R180): the link commands,
SET_ADDR and GET_ADDR, and the illegal words. -/

namespace Sys2Proof.Proofs.Commands

open Machine Laws CrcCommands

/-! ## READ_REGS and WRITE_REG -/

/-- The state after the acceptance of a link command with the link up (42_commands.md R151, R152). -/
def requested (kind : Kind) (a b : Word) (s : State) : State :=
  { s with
    done := false, err := .ok, excCode := 0, rxCount := 0, fsm := .gapPre
    req := requestOf kind s.addr (functionCode s.cfg kind) a b
    txbuf := encodeReq (requestOf kind s.addr (functionCode s.cfg kind) a b) }

theorem startTransaction_accepted_up {kind : Kind} {a b : Word} {s : State} (hup : s.linkUp = true) :
    startTransaction kind (functionCode s.cfg kind) a b (clearStatus s) = requested kind a b s :=
  startTransaction_up (s := clearStatus s) hup

theorem startTransaction_accepted_down {kind : Kind} {a b : Word} {s : State} (hf : s.fsm = .idle)
    (hup : s.linkUp = false) :
    startTransaction kind (functionCode s.cfg kind) a b (clearStatus s) = { s with
      done := true, err := .notConnected, excCode := 0, result := 0, rxCount := 0
      req := requestOf kind s.addr (functionCode s.cfg kind) a b } := by
  rw [startTransaction_down (s := clearStatus s) hup]
  exact raiseError_idle
    (s := { clearStatus s with req := requestOf kind s.addr (functionCode s.cfg kind) a b, rxCount := 0 }) hf

section
variable {s : State} (hc : configOk s.cfg = true) (hf : s.fsm = .idle) (a b : Word)
include hc hf

theorem exec_readRegs_run :
    exec (.readRegs a b) s = .next (startTransaction .read (functionCode s.cfg .read) a b (clearStatus s)) :=
  show execReadRegs a b s = _ from acceptCommand_run hc hf

theorem exec_writeReg_run :
    exec (.writeReg a b) s = .next (startTransaction .write (functionCode s.cfg .write) a b (clearStatus s)) :=
  show execWriteReg a b s = _ from acceptCommand_run hc hf

theorem exec_readRegs_up (hup : s.linkUp = true) : exec (.readRegs a b) s = .next (requested .read a b s) := by
  rw [exec_readRegs_run hc hf, startTransaction_accepted_up hup]

theorem exec_writeReg_up (hup : s.linkUp = true) : exec (.writeReg a b) s = .next (requested .write a b s) := by
  rw [exec_writeReg_run hc hf, startTransaction_accepted_up hup]

end

/-- Settles O18: both commands start the transaction of their kind, or complete it at once. -/
theorem linkCommandsStartTransaction : Obligations.LinkCommandsStartTransaction := by
  intro s a b hc hf
  refine ⟨fun hup => ⟨exec_readRegs_up hc hf a b hup, exec_writeReg_up hc hf a b hup⟩, fun hup => ⟨?_, ?_⟩⟩
  · rw [exec_readRegs_run hc hf, startTransaction_accepted_down hf hup]
    rfl
  · rw [exec_writeReg_run hc hf, startTransaction_accepted_down hf hup]
    rfl

/-! ## SET_ADDR and GET_ADDR -/

theorem loByte_eq_ofNat (a : Word) : loByte a = BitVec.ofNat 8 a.toNat :=
  BitVec.eq_of_toNat_eq (by rw [loByte_toNat, BitVec.toNat_ofNat])

theorem zext16_eq_ofNat (v : Byte) : zext16 v = BitVec.ofNat 16 v.toNat := (BitVec.ofNat_toNat 16 v).symm

/-- An operand below 256 is the byte that is stored. -/
theorem zext16_loByte {a : Word} (ha : a.toNat < 256) : zext16 (loByte a) = a := by
  apply BitVec.eq_of_toNat_eq
  rw [zext16_eq_ofNat, BitVec.toNat_ofNat, loByte_toNat]
  omega

theorem addrInRange_iff (c : Config) (a : Word) :
    addrInRange c a = true ↔ c.addrMin ≤ a.toNat ∧ a.toNat ≤ c.addrMax := by
  simp [addrInRange]

theorem exec_setAddr_run {s : State} (hc : configOk s.cfg = true) (hf : s.fsm = .idle) (a b : Word) :
    exec (.setAddr a b) s = .next (setAddress a (clearStatus s)) :=
  show execSetAddr a b s = _ from acceptCommand_run hc hf

theorem exec_getAddr_run {s : State} (hc : configOk s.cfg = true) (hf : s.fsm = .idle) (a b : Word) :
    exec (.getAddr a b) s = .next (complete .ok (zext16 s.addr) 0 (clearStatus s)) :=
  show execGetAddr a b s = _ from acceptCommand_run hc hf

/-- Settles O19: ADDR_MAX is at most 255 (00_scope.md R6), so an operand in range is the byte that is stored. -/
theorem setAddrSetsOrRejects : Obligations.SetAddrSetsOrRejects := by
  intro s a b hc hf
  obtain ⟨-, -, hmax, -⟩ := (configOk_iff s.cfg).1 hc
  refine ⟨decodeCommand_rsv0 0x3 a b, fun hin => ?inRange, fun hout => ?outOfRange⟩
  case inRange =>
    have hbyte : zext16 (loByte a) = a := zext16_loByte (by omega)
    rw [exec_setAddr_run hc hf, setAddress_in (s := clearStatus s) ((addrInRange_iff s.cfg a).2 hin), hbyte,
      complete_ok_idle (s := { clearStatus s with addr := loByte a }) hf, loByte_eq_ofNat]
    rfl
  case outOfRange =>
    have hrange : addrInRange s.cfg a = false :=
      eq_false_of_ne_true (mt (addrInRange_iff s.cfg a).1 (by omega))
    rw [exec_setAddr_run hc hf, setAddress_out (s := clearStatus s) hrange, raiseError_idle (s := clearStatus s) hf]
    rfl

/-- Settles O20: the acceptance completes with ADDR, zero-extended. -/
theorem getAddrReadsAddr : Obligations.GetAddrReadsAddr := by
  intro s a b hc hf
  refine ⟨decodeCommand_rsv0 0x4 a b, ?_⟩
  rw [exec_getAddr_run hc hf, complete_ok_idle (s := clearStatus s) hf, zext16_eq_ofNat]
  rfl

/-! ## Illegal command words -/

theorem illegalCommand_run {s : State} (hc : configOk s.cfg = true) (hf : s.fsm = .idle) :
    illegalCommand s = .next { s with done := true, err := .illegalCmd, excCode := 0, result := 0 } :=
  (acceptCommand_run hc hf).trans (congrArg _ (raiseError_idle (s := clearStatus s) hf))

theorem startTransaction_err_ne_illegalCmd (kind : Kind) (fc : Byte) (a b : Word) {s : State} (h : s.err = .ok) :
    (startTransaction kind fc a b s).err ≠ .illegalCmd := by
  cases hup : s.linkUp with
  | true => rw [startTransaction_up hup]; simp [h]
  | false => rw [startTransaction_down hup]; simp

theorem setAddress_err_ne_illegalCmd (a : Word) (s : State) : (setAddress a s).err ≠ .illegalCmd := by
  unfold setAddress
  split <;> simp

theorem crcAppendEffect_err_ne_illegalCmd {n : Nat} {s t : State} (h : Machine.crcAppendEffect n s = .next t) :
    t.err ≠ .illegalCmd := by
  rcases crcAppendEffect_cases n s with ⟨_, e⟩ | ⟨_, _, e⟩ | ⟨_, d, _, e⟩ <;> rw [e] at h <;> cases h
  · simp
  · simp [appendCrc]

theorem checkCrc_err_ne_illegalCmd (n : Nat) (g : Frame) (s : State) : (checkCrc n g s).err ≠ .illegalCmd := by
  unfold checkCrc
  split <;> simp

theorem crcCheckEffect_err_ne_illegalCmd {n : Nat} {s t : State} (h : Machine.crcCheckEffect n s = .next t) :
    t.err ≠ .illegalCmd := by
  rcases crcCheckEffect_cases n s with ⟨_, e⟩ | ⟨_, _, e⟩ | ⟨_, _, _, e⟩ | ⟨_, _, g, _, e⟩ <;>
    rw [e] at h <;> cases h
  · simp
  · simp
  · exact checkCrc_err_ne_illegalCmd n g s

/-- No completion of the instruction is ILLEGAL_CMD. -/
def NeverIllegal (i : Instr) : Prop := ∀ s t, exec i s = .next t → t.err ≠ .illegalCmd

theorem neverIllegal_of_accept {i : Instr} {k : State → StepResult} (hi : ∀ s, exec i s = acceptCommand k s)
    (hk : ∀ s t, s.err = .ok → k s = .next t → t.err ≠ .illegalCmd) : NeverIllegal i := by
  intro s t h
  rw [hi] at h
  obtain ⟨-, -, h⟩ := acceptCommand_next.1 h
  exact hk _ t (clearStatus_err s) h

theorem neverIllegal_of_next {i : Instr} {g : State → State}
    (hi : ∀ s, exec i s = acceptCommand (fun s => .next (g s)) s)
    (hg : ∀ s, s.err = .ok → (g s).err ≠ .illegalCmd) : NeverIllegal i :=
  neverIllegal_of_accept hi fun s _ hs h => Host.Outcome.next.inj h ▸ hg s hs

/-- With rsv = 0 an operation code is illegal, or one of the six commands, none of which answers ILLEGAL_CMD. -/
theorem decodeOp_illegal_or_command (op : BitVec 4) (a b : Word) :
    ((op = 0 ∨ 7 ≤ op.toNat) ∧ ∀ s, exec (decodeOp op a b) s = illegalCommand s) ∨
    (¬(op = 0 ∨ 7 ≤ op.toNat) ∧ NeverIllegal (decodeOp op a b)) := by
  have hzero : op = 0 ↔ op.toNat = 0 := BitVec.toNat_eq
  rw [hzero]
  unfold decodeOp
  split
  case h_2 =>
    exact .inr ⟨by omega, neverIllegal_of_next (g := fun s => startTransaction .read s.cfg.fcRead a b s)
      (fun _ => rfl) fun _ => startTransaction_err_ne_illegalCmd _ _ a b⟩
  case h_3 =>
    exact .inr ⟨by omega, neverIllegal_of_next (g := fun s => startTransaction .write s.cfg.fcWrite a b s)
      (fun _ => rfl) fun _ => startTransaction_err_ne_illegalCmd _ _ a b⟩
  case h_4 => exact .inr ⟨by omega, neverIllegal_of_next (fun _ => rfl) fun s _ => setAddress_err_ne_illegalCmd a s⟩
  case h_5 =>
    exact .inr ⟨by omega, neverIllegal_of_next (g := fun s => complete .ok (zext16 s.addr) 0 s)
      (fun _ => rfl) fun _ _ => by simp⟩
  case h_6 =>
    exact .inr ⟨by omega, neverIllegal_of_accept (fun _ => rfl) fun _ _ _ => crcAppendEffect_err_ne_illegalCmd⟩
  case h_7 =>
    exact .inr ⟨by omega, neverIllegal_of_accept (fun _ => rfl) fun _ _ _ => crcCheckEffect_err_ne_illegalCmd⟩
  case h_16 =>
    refine .inl ⟨?_, fun _ => rfl⟩
    simp only [imp_false] at *
    omega
  all_goals exact .inl ⟨by omega, fun _ => rfl⟩

/-- Settles O26: each illegal instruction is `illegalCommand`, and no other word's command answers ILLEGAL_CMD. -/
theorem illegalWordsComplete : Obligations.IllegalWordsComplete := by
  constructor
  · intro s rsv op a b i hc hf hi
    simp only [List.mem_cons, List.not_mem_nil, or_false] at hi
    rcases hi with rfl | rfl | rfl | rfl | rfl | rfl | rfl | rfl | rfl | rfl | rfl <;>
      exact illegalCommand_run hc hf
  · intro s w hc hf
    by_cases hrsv : cmdRsv w = 0
    · rw [decodeCommand, if_neg (not_not.2 hrsv)]
      obtain ⟨hop, hexec⟩ | ⟨hop, hexec⟩ := decodeOp_illegal_or_command (cmdOp w) (cmdA w) (cmdB w)
      · rw [hexec, illegalCommand_run hc hf]
        exact iff_of_true (.inr hop) rfl
      · exact iff_of_false (not_or.2 ⟨not_not.2 hrsv, hop⟩) fun h => hexec s _ h rfl
    · rw [decodeCommand, if_pos hrsv]
      exact iff_of_true (.inl hrsv) (illegalCommand_run hc hf)

end Sys2Proof.Proofs.Commands
end

