-- ==== Sys2Proof/Proofs/Transactions.lean ====
section
/-! A transaction event by event (42_commands.md R155 to R159), and whole READ_REGS and WRITE_REG from acceptance to
completion (R160, R161, R163). -/

namespace Sys2Proof.Proofs.Transactions

open Machine Laws FrameEvents Ports Validator Responses Commands

/-! ## A step takes its input and runs -/

/-- The state in which an event has been taken off the list, with the level of `link_up` it comes with. -/
def taken (up : Bool) (rest : List Input) (s : State) : State :=
  { s with linkUp := up, inputs := rest, draws := s.draws + 1 }

section
variable {s : State} {up : Bool} {rest : List Input} (hc : configOk s.cfg = true)
include hc

theorem step_taken {e : Event} (hin : s.inputs = .event up e :: rest) : step s = fireEvent e (taken up rest s) :=
  step_event hc hin

theorem step_command {w : CmdWord} (hin : s.inputs = .event up (.cmd w) :: rest) :
    step s = exec (decodeCommand w) (taken up rest s) :=
  step_taken hc hin

theorem step_gapPre (hf : s.fsm = .gapPre) (hin : s.inputs = .event up .gapElapsed :: rest) :
    step s = .next (gapPreElapsed (taken up rest s)) :=
  (step_taken hc hin).trans (gapElapsed_gapPre (s := taken up rest s) hc hf)

theorem step_flush (hf : s.fsm = .flush) (hin : s.inputs = .event up .flushAck :: rest) :
    step s = .next (flushAcked (taken up rest s)) :=
  (step_taken hc hin).trans (show flushAck (taken up rest s) = _ from inState_run hc hf)

theorem step_send (hf : s.fsm = .send) {o : TxOutcome} (hin : s.inputs = .event up (.txDone o) :: rest) :
    step s = .next (txDone o (taken up rest s)) :=
  (step_taken hc hin).trans (txEvent_run (s := taken up rest s) hc hf o)

theorem step_gapPost (hf : s.fsm = .gapPost) (hin : s.inputs = .event up .gapElapsed :: rest) :
    step s = .next (gapPostElapsed (taken up rest s)) :=
  (step_taken hc hin).trans (gapElapsed_gapPost (s := taken up rest s) hf)

theorem step_recv (hf : s.fsm = .recv) {o : RxOutcome} (hin : s.inputs = .event up (.rxDone o) :: rest) :
    step s = .next (rxDone o (taken up rest s)) :=
  (step_taken hc hin).trans (rxEvent_run (s := taken up rest s) hc hf o)

end

/-- Settles O31: the event of a command word runs the word's reading. -/
theorem stepRunsDecodedCommand : Obligations.StepRunsDecodedCommand := by
  intro s up w rest i hc hin hi
  cases hi
  exact step_command hc hin

theorem transmitDone_decoded {s : State} {i : Instr} (h : decode s.cfg (.request s.txbuf) = .ok i) :
    transmitDone s = exec i s := by
  rw [transmitDone, h]

theorem frameDone_decoded {s : State} {f : Frame} {i : Instr} (h : decode s.cfg (.response s.req.kind f) = .ok i) :
    frameDone f s = exec i s := by
  rw [frameDone, h]

/-- Settles O32: both events of the link run what their frame decodes to. -/
theorem stepRunsDecodedFrames : Obligations.StepRunsDecodedFrames :=
  fun s up rest _ hc =>
    ⟨fun hin hi => (step_taken hc hin).trans (transmitDone_decoded (s := taken up rest s) hi),
     fun _ hin hi => (step_taken hc hin).trans (frameDone_decoded (s := taken up rest s) hi)⟩

/-- Settles O27: the frame is the one offered from TXBUF. -/
theorem requestFramesAreTransmitted : Obligations.RequestFramesAreTransmitted :=
  fun _ _ _ _ hc hf =>
    ⟨fun hbuf => transmitted_next.2 ⟨hc, hf, hbuf, rfl⟩, fun hbuf => transmitted_next.2 ⟨hc, hf, hbuf, rfl⟩⟩

/-! ## The states of a transaction -/

/-- Settles O33: each event is the only one its state waits for. -/
theorem waitStatesMoveOn : Obligations.WaitStatesMoveOn :=
  fun _ _ _ hc => ⟨step_gapPre hc, step_flush hc, step_gapPost hc⟩

/-- Settles O34: the outcome of the send decides, whatever TXBUF holds. -/
theorem txDoneEndsTransmit : Obligations.TxDoneEndsTransmit := by
  intro s up rest hc hf
  refine ⟨step_send hc hf, fun o e ho hin => ?_⟩
  rw [step_send hc hf hin]
  simp only [List.mem_cons, Prod.mk.injEq, List.not_mem_nil, or_false] at ho
  obtain ⟨rfl, rfl⟩ | ⟨rfl, rfl⟩ | ⟨rfl, rfl⟩ := ho <;> rfl

/-- Settles O35: a frame completes by its verdict, any other outcome by its error. -/
theorem rxDoneCompletes : Obligations.RxDoneCompletes := by
  intro s up rest hc hf
  refine ⟨fun f hne hin => ⟨_, step_rxFrame hc hf hne hin, rfl⟩, fun o e ho hin => ?_⟩
  rw [step_recv hc hf hin]
  simp only [List.mem_cons, Prod.mk.injEq, List.not_mem_nil, or_false] at ho
  obtain ⟨rfl, rfl⟩ | ⟨rfl, rfl⟩ | ⟨rfl, rfl⟩ | ⟨rfl, rfl⟩ := ho <;> rfl

/-! ## Runs from GAP_PRE -/

/-- The state of SEND two steps after GAP_PRE. -/
def sending (up : Bool) (rest : List Input) (s : State) : State :=
  { s with fsm := .send, txIdx := 0, txRecent := false, linkUp := up, inputs := rest, draws := s.draws + 2 }

/-- The state of RECV two steps after SEND. -/
def receiving (up : Bool) (rest : List Input) (s : State) : State :=
  { s with fsm := .recv, rxacc := [], txRecent := false, linkUp := up, inputs := rest, draws := s.draws + 2 }

section
variable {s : State} {u1 u2 u3 u4 u5 : Bool} {rest : List Input} (hc : configOk s.cfg = true)
include hc

theorem run_gapPre_to_send (hf : s.fsm = .gapPre) (k : Nat)
    (hin : s.inputs = .event u1 .gapElapsed :: .event u2 .flushAck :: rest) :
    Host.Core.run Sys2Proof.core (k + 2) s = Host.Core.run Sys2Proof.core k (sending u2 rest s) :=
  (run_succ (step_gapPre hc hf hin)).trans (run_succ (step_flush (s := gapPreElapsed (taken u1 _ s)) hc rfl rfl))

theorem run_send_to_recv (hf : s.fsm = .send) (k : Nat)
    (hin : s.inputs = .event u1 (.txDone .ok) :: .event u2 .gapElapsed :: rest) :
    Host.Core.run Sys2Proof.core (k + 2) s = Host.Core.run Sys2Proof.core k (receiving u2 rest s) :=
  (run_succ (step_send hc hf hin)).trans (run_succ (step_gapPost (s := txDone .ok (taken u1 _ s)) hc rfl rfl))

/-- A send that fails ends the transaction on the third step. -/
theorem run_failedSend {o : TxOutcome} (hf : s.fsm = .gapPre)
    (hin : s.inputs = .event u1 .gapElapsed :: .event u2 .flushAck :: .event u3 (.txDone o) :: rest) :
    Host.Core.run Sys2Proof.core 3 s = .next (txDone o (taken u3 rest (sending u2 [] s))) := by
  rw [run_gapPre_to_send hc hf 1 hin]
  exact run_succ (step_send (s := sending u2 _ s) hc rfl rfl)

/-- After a good send the outcome of the receive ends the transaction on the fifth step. -/
theorem run_transaction {o : RxOutcome} (hf : s.fsm = .gapPre)
    (hin : s.inputs = .event u1 .gapElapsed :: .event u2 .flushAck :: .event u3 (.txDone .ok) ::
      .event u4 .gapElapsed :: .event u5 (.rxDone o) :: rest) :
    Host.Core.run Sys2Proof.core 5 s = .next (rxDone o (taken u5 rest (receiving u4 [] (sending u2 [] s)))) := by
  rw [run_gapPre_to_send hc hf 3 hin, run_send_to_recv (s := sending u2 _ s) hc rfl 1 rfl]
  exact run_succ (step_recv (s := receiving u4 _ (sending u2 _ s)) hc rfl rfl)

end

theorem rxDone_completes (o : RxOutcome) (s : State) :
    (rxDone o s).fsm = .idle ∧ (rxDone o s).done = true ∧
      (rxDone o s).inputs = s.inputs := by
  cases o with
  | frame f => cases f <;> exact ⟨rfl, rfl, rfl⟩
  | notConnected | timedOut | ioError => exact ⟨rfl, rfl, rfl⟩

/-- Settles O38: the last of the five events, or of the three, completes the command. -/
theorem transactionEndsWithinFiveSteps : Obligations.TransactionEndsWithinFiveSteps := by
  intro s u1 u2 u3 u4 u5 rest hc hf
  refine ⟨fun o hin => ⟨_, run_transaction hc hf hin, rxDone_completes o _⟩, fun o ho hin => ?_⟩
  rw [run_failedSend hc hf hin, txDone_error ho]
  exact ⟨_, rfl, rfl, rfl, rfl, rfl⟩

/-! ## Whole transactions -/

/-- The framer that has made a request of this kind in IDLE, when the response is delivered: the registers of the
request, in RECV, on the sixth step. -/
def responded (kind : Kind) (a b : Word) (up : Bool) (rest : List Input) (s : State) : State :=
  { requested kind a b s with
    fsm := .recv, txIdx := 0, rxacc := [], txRecent := false, linkUp := up, inputs := rest, draws := s.draws + 6 }

/-- A link command with the link up, and then the five events of its transaction. -/
theorem run_linkCommand {s : State} {kind : Kind} {w : CmdWord} {a b : Word} {o : RxOutcome}
    {u2 u3 u4 u5 u6 : Bool} {rest : List Input} (hc : configOk s.cfg = true)
    (hin : s.inputs = .event true (.cmd w) :: .event u2 .gapElapsed :: .event u3 .flushAck ::
      .event u4 (.txDone .ok) :: .event u5 .gapElapsed :: .event u6 (.rxDone o) :: rest)
    (haccept : ∀ inputs,
      exec (decodeCommand w) (taken true inputs s) = .next (requested kind a b (taken true inputs s))) :
    Host.Core.run Sys2Proof.core 6 s = .next (rxDone o (responded kind a b u6 rest s)) := by
  have hfirst := (step_command hc hin).trans (haccept _)
  exact (run_succ hfirst).trans (run_transaction (s := requested kind a b (taken true _ s)) hc rfl rfl)

section
variable {s : State} {reg val : Word} {o : RxOutcome} {u2 u3 u4 u5 u6 : Bool} {rest : List Input}
  (hc : configOk s.cfg = true) (hf : s.fsm = .idle)
include hc hf

theorem run_readRegs
    (hin : s.inputs = .event true (.cmd (encodeCommand 0 1 reg val)) :: .event u2 .gapElapsed :: .event u3 .flushAck ::
      .event u4 (.txDone .ok) :: .event u5 .gapElapsed :: .event u6 (.rxDone o) :: rest) :
    Host.Core.run Sys2Proof.core 6 s = .next (rxDone o (responded .read reg val u6 rest s)) :=
  run_linkCommand hc hin fun inputs => by
    rw [decodeCommand_rsv0]
    exact exec_readRegs_up (s := taken true inputs s) hc hf reg val rfl

theorem run_writeReg
    (hin : s.inputs = .event true (.cmd (encodeCommand 0 2 reg val)) :: .event u2 .gapElapsed :: .event u3 .flushAck ::
      .event u4 (.txDone .ok) :: .event u5 .gapElapsed :: .event u6 (.rxDone o) :: rest) :
    Host.Core.run Sys2Proof.core 6 s = .next (rxDone o (responded .write reg val u6 rest s)) :=
  run_linkCommand hc hin fun inputs => by
    rw [decodeCommand_rsv0]
    exact exec_writeReg_up (s := taken true inputs s) hc hf reg val rfl

end

/-- Settles O39: six steps bring the response to the framer that asked for it, and it is received as in RECV. -/
theorem readTransactionReturnsPayload : Obligations.ReadTransactionReturnsPayload := by
  intro s reg count hdrRest payload u2 u3 u4 u5 u6 rest hc hf hlen hcap hin
  obtain ⟨-, -, -, -, hmax, -⟩ := (configOk_iff s.cfg).1 hc
  obtain ⟨t, hexec, hafter, -, hpayload, hkept⟩ :=
    readResponseCompletesRead (responded .read reg count u6 rest s) hdrRest payload hc rfl rfl rfl hlen hcap
  obtain ⟨-, -, hreceived⟩ := received_next.1 hexec
  have hresult : t.result = lengthWord payload.length := congrArg State.result hafter
  have hcount : t.rxCount = lengthWord (s.cfg.readHdrLen + payload.length + 2) := congrArg State.rxCount hafter
  have haddr : t.addr = s.addr := by rw [hafter]; rfl
  have hcrc : t.crc = s.crc := by rw [hafter]; rfl
  refine ⟨t, (run_readRegs hc hf hin).trans (congrArg _ hreceived.symm), congrArg State.fsm hafter,
    congrArg State.done hafter, congrArg State.err hafter, congrArg State.excCode hafter, ?_, ?_, haddr, hcrc,
    congrArg State.inputs hafter, hpayload, hkept⟩
  · rw [hresult]
    exact Nat.mod_eq_of_lt (show payload.length < 2 ^ 16 by omega)
  · rw [hcount]
    exact Nat.mod_eq_of_lt (show s.cfg.readHdrLen + payload.length + 2 < 2 ^ 16 by omega)

/-- Settles O40: six steps bring the response to the framer that asked for it, which is OK on the echo alone. -/
theorem writeTransactionNeedsTheEcho : Obligations.WriteTransactionNeedsTheEcho := by
  intro s reg value f u2 u3 u4 u5 u6 rest hc hf hne hin
  obtain ⟨hecho, hvalue⟩ :=
    writeSucceedsExactlyOnTheEcho s.cfg (responded .write reg value u6 rest s).req f hc rfl rfl
  have hrun := run_writeReg hc hf hin
  rw [rxDone_frame hne] at hrun
  refine ⟨_, hrun, rfl, rfl, rfl, rfl, rfl, hecho, ?_⟩
  rw [receiveFrame_result, receiveFrame_err]
  refine ite_congr rfl (fun hok => ?_) fun _ => rfl
  rw [hecho.1 hok]
  exact hvalue

end Sys2Proof.Proofs.Transactions
end

