-- ==== Sys2Proof/Proofs/Exceptions.lean ====
section
/-! What a failed command leaves (60_exceptions.md R202): ADDR; CRC, whose writers are CRC_APPEND and CRC_CHECK; BUF, whose
writers are CRC_APPEND and a response frame in RECV. -/

namespace Sys2Proof.Proofs.Exceptions

open Machine Laws Instructions

/-! ## ADDR -/

/-- SET_ADDR with an operand out of range leaves ADDR (42_commands.md R170). -/
theorem setAddress_addr_of_failed {a : Word} {s : State} (herr : (setAddress a s).err ≠ .ok) :
    (setAddress a s).addr = s.addr := by
  cases hin : addrInRange s.cfg a with
  | false => rw [setAddress_out hin]; rfl
  | true => exact absurd (by rw [setAddress_in hin]; rfl) herr

theorem exec_addr_of_failed {i : Instr} {s t : State} (h : exec i s = .next t) (herr : t.err ≠ .ok) :
    t.addr = s.addr := by
  cases exec_registerWrites h with
  | link _ _ _ haddr => exact haddr
  | setAddr a b ht => subst ht; exact setAddress_addr_of_failed herr
  | receive _ haddr => exact haddr
  | none hsame => exact hsame.addr

/-! ## Writers of CRC and BUF -/

/-- CRC and BUF read as before. -/
structure SameCrcBuf (s t : State) : Prop where
  crc : t.crc = s.crc
  buf : t.buf = s.buf

theorem startTransaction_sameCrcBuf (kind : Kind) (fc : Byte) (a b : Word) (s : State) :
    SameCrcBuf s (startTransaction kind fc a b s) := by
  cases hup : s.linkUp with
  | true => rw [startTransaction_up hup]; exact ⟨rfl, rfl⟩
  | false => rw [startTransaction_down hup]; exact ⟨rfl, rfl⟩

theorem setAddress_sameCrcBuf (a : Word) (s : State) : SameCrcBuf s (setAddress a s) := by
  cases hin : addrInRange s.cfg a with
  | true => rw [setAddress_in hin]; exact ⟨rfl, rfl⟩
  | false => rw [setAddress_out hin]; exact ⟨rfl, rfl⟩

/-- Acceptance itself clears the status alone (42_commands.md R151). -/
theorem acceptCommand_sameCrcBuf {g : State → State} (hg : ∀ s, SameCrcBuf s (g s)) {s t : State}
    (h : acceptCommand (fun s => .next (g s)) s = .next t) : SameCrcBuf s t := by
  obtain ⟨-, -, h⟩ := acceptCommand_next.1 h
  cases h
  exact ⟨(hg (clearStatus s)).crc, (hg (clearStatus s)).buf⟩

theorem illegalCommand_sameCrcBuf {s t : State} (h : illegalCommand s = .next t) : SameCrcBuf s t :=
  acceptCommand_sameCrcBuf (g := raiseError .illegalCmd 0) (fun _ => ⟨rfl, rfl⟩) h

theorem transmitted_sameCrcBuf {f : Frame} {s t : State} (h : transmitted f s = .next t) : SameCrcBuf s t := by
  obtain ⟨-, -, -, rfl⟩ := transmitted_next.1 h
  exact ⟨rfl, rfl⟩

/-- Once CRC_CHECK has its frame it answers OK or CRC_MISMATCH, and leaves BUF (40_crc.md R111). -/
theorem checkCrc_writes (n : Nat) (g : Frame) (s : State) :
    (checkCrc n g s).buf = s.buf ∧ ((checkCrc n g s).err = .ok ∨ (checkCrc n g s).err = .crcMismatch) := by
  unfold checkCrc; dsimp only; split
  · exact ⟨rfl, .inl rfl⟩
  · exact ⟨rfl, .inr rfl⟩

/-- What an instruction may do to CRC and BUF. -/
inductive CrcBufWrites (s t : State) : Instr → Prop
  | append (n b : Word) (herr : t.err = .ok) : CrcBufWrites s t (.crcAppend n b)
  | check (n b : Word) (herr : t.err = .ok ∨ t.err = .crcMismatch) (hbuf : t.buf = s.buf) :
    CrcBufWrites s t (.crcCheck n b)
  | receive {i : Instr} (hf : s.fsm = .recv) (hcrc : t.crc = s.crc) : CrcBufWrites s t i
  | none {i : Instr} (hsame : SameCrcBuf s t) : CrcBufWrites s t i

theorem crcBufWrites_received {i : Instr} {f : Frame} {s t : State} (h : received f s = .next t) :
    CrcBufWrites s t i := by
  obtain ⟨-, hf, rfl⟩ := received_next.1 h
  cases f <;> exact .receive hf rfl

theorem crcBufWrites_crcAppend {n b : Word} {s t : State} (h : execCrcAppend n b s = .next t) :
    CrcBufWrites s t (.crcAppend n b) := by
  obtain ⟨-, -, h⟩ := acceptCommand_next.1 h
  rcases crcAppendEffect_cases (lengthOf n) (clearStatus s) with ⟨_, e⟩ | ⟨_, _, e⟩ | ⟨_, d, _, e⟩ <;>
    rw [e] at h <;> cases h
  · exact .none ⟨rfl, rfl⟩
  · exact .append n b rfl

theorem crcBufWrites_crcCheck {n b : Word} {s t : State} (h : execCrcCheck n b s = .next t) :
    CrcBufWrites s t (.crcCheck n b) := by
  obtain ⟨-, -, h⟩ := acceptCommand_next.1 h
  rcases crcCheckEffect_cases (lengthOf n) (clearStatus s) with
    ⟨_, e⟩ | ⟨_, _, e⟩ | ⟨_, _, _, e⟩ | ⟨_, _, g, _, e⟩ <;> rw [e] at h <;> cases h
  · exact .none ⟨rfl, rfl⟩
  · exact .none ⟨rfl, rfl⟩
  · obtain ⟨hbuf, herr⟩ := checkCrc_writes (lengthOf n) g (clearStatus s)
    exact .check n b herr hbuf

theorem exec_crcBufWrites {i : Instr} {s t : State} (h : exec i s = .next t) : CrcBufWrites s t i := by
  cases i with
  | readRegs a b => exact .none (acceptCommand_sameCrcBuf (fun _ => startTransaction_sameCrcBuf ..) h)
  | writeReg a b => exact .none (acceptCommand_sameCrcBuf (fun _ => startTransaction_sameCrcBuf ..) h)
  | setAddr a b => exact .none (acceptCommand_sameCrcBuf (setAddress_sameCrcBuf a) h)
  | getAddr a b =>
    exact .none (acceptCommand_sameCrcBuf (g := fun s => complete .ok (zext16 s.addr) 0 s) (fun _ => ⟨rfl, rfl⟩) h)
  | crcAppend n b => exact crcBufWrites_crcAppend h
  | crcCheck n b => exact crcBufWrites_crcCheck h
  | illegalOp0 | illegalOp7 | illegalOp8 | illegalOp9 | illegalOpA | illegalOpB | illegalOpC | illegalOpD | illegalOpE
  | illegalOpF | illegalRsv => exact .none (illegalCommand_sameCrcBuf h)
  | frameReadReq | frameWriteReq => exact .none (transmitted_sameCrcBuf h)
  | frameReadResp | frameWriteEcho | frameException => exact crcBufWrites_received h

/-- Settles O41: ADDR by its one writer, CRC and BUF by the four ways an instruction treats them. -/
theorem failedCommandsWriteNothingElse : Obligations.FailedCommandsWriteNothingElse := by
  intro i s t h
  refine ⟨exec_addr_of_failed h, ?_⟩
  cases exec_crcBufWrites h with
  | append n b herr => exact ⟨fun _ => .inl ⟨n, b, rfl, herr⟩, fun _ => .inr ⟨n, b, rfl, herr⟩⟩
  | check n b herr hbuf => exact ⟨fun _ => .inr ⟨n, b, rfl, herr⟩, fun hne => absurd hbuf hne⟩
  | receive hf hcrc => exact ⟨fun hne => absurd hcrc hne, fun _ => .inl hf⟩
  | none hsame => exact ⟨fun hne => absurd hsame.crc hne, fun hne => absurd hsame.buf hne⟩

end Sys2Proof.Proofs.Exceptions
end

