-- ==== Sys2Proof/Proofs/Reset.lean ====
section
/-! Reset (70_reset_and_hazards.md R230, R231) and what a busy framer does not look at (R240, R242). -/

namespace Sys2Proof.Proofs.Reset

open Machine Laws Ports Status

/-! ## Reset -/

/-- The inputs that reset the framer (70_reset_and_hazards.md R230). -/
def IsReset (x : Input) : Prop := (∃ up, x = .event up .reset) ∨ ∃ p, x = .ports p ∧ p.rst = true

/-- A step by either form of reset is `applyReset`, up to the environment's part of the state. -/
theorem step_reset {s : State} {x : Input} {rest : List Input} (hc : configOk s.cfg = true)
    (hin : s.inputs = x :: rest) (hx : IsReset x) : ∃ u, u.cfg = s.cfg ∧ step s = .next (applyReset u) := by
  rcases hx with ⟨up, rfl⟩ | ⟨p, rfl, hr⟩
  · exact ⟨{ s with linkUp := up, inputs := rest, draws := s.draws + 1 }, rfl, step_event hc hin⟩
  · exact ⟨latchSample p { s with inputs := rest, draws := s.draws + 1 }, rfl,
      (step_ports hc hin).trans (portStep_rst hr _)⟩

/-- The fields of STATUS all read 0 after reset, by the weights they have in its number. -/
theorem applyReset_status (s : State) : (applyReset s).status = 0 :=
  BitVec.eq_of_toNat_eq (by simp [status_toNat, errCode])

/-- The BUF that reset leaves holds no value (70_reset_and_hazards.md R231). -/
theorem read_nil (j : Nat) : Memory.read [] j = none := rfl

/-- While rst is 1 the framer asks the host and the link for nothing (70_reset_and_hazards.md R230). -/
theorem portOutputs_rst {p : PortSample} (hr : p.rst = true) (s : State) :
    (portOutputs p s).cmdReady = false ∧ (portOutputs p s).flushReq = false ∧ (portOutputs p s).txValid = false ∧
      (portOutputs p s).rxEn = false := by
  simp [portOutputs, hr]

/-- Settles O47: either form of reset is `applyReset`, whose fields are the reset values of the configuration. -/
theorem resetRestoresResetValues : Obligations.ResetRestoresResetValues := by
  intro s x rest hc hin hx
  refine ⟨?_, fun p _ hr => portOutputs_rst hr s⟩
  obtain ⟨u, hcfg, hstep⟩ := step_reset hc hin hx
  refine ⟨applyReset u, hstep, ?_⟩
  simp [hcfg, applyReset_status, read_nil]

/-! ## The host's ports while the framer is busy -/

/-- Two samples that agree on every signal but the host's command and buffer ports (10_state.md R24). -/
def SameButHost (p q : PortSample) : Prop :=
  q = { p with
    cmdValid := q.cmdValid, cmdWord := q.cmdWord, bufWe := q.bufWe, bufWaddr := q.bufWaddr, bufWdata := q.bufWdata
    bufRaddr := q.bufRaddr }

/-- Only `idleSample` looks at the host's ports; the latches and the samples of the busy states do not. -/
theorem portStep_busy_congr {p q : PortSample} (h : SameButHost p q) {s : State} (hbusy : s.fsm ≠ .idle) :
    portStep q s = portStep p s := by
  have hlatch : latchSample q s = latchSample p s := by rw [h]; rfl
  have hrst : q.rst = p.rst := by rw [h]
  cases hr : p.rst with
  | true => rw [portStep_rst hr, portStep_rst (hrst.trans hr), hlatch]
  | false =>
    have hr' : q.rst = false := hrst.trans hr
    cases hf : s.fsm with
    | idle => exact absurd hf hbusy
    | gapPre => rw [portStep_gapPre hr hf, portStep_gapPre hr' hf, hlatch]
    | flush => rw [portStep_flush hr hf, portStep_flush hr' hf, hlatch, h]
    | send => rw [portStep_send hr hf, portStep_send hr' hf, hlatch, h]; rfl
    | gapPost => rw [portStep_gapPost hr hf, portStep_gapPost hr' hf, hlatch, h]
    | recv => rw [portStep_recv hr hf, portStep_recv hr' hf, hlatch, h]; rfl

/-- Settles O44: the two samples agree on every signal that a busy state looks at. -/
theorem busyFramerIgnoresTheHost : Obligations.BusyFramerIgnoresTheHost := by
  intro s p cmdValid cmdWord bufWe bufWaddr bufWdata bufRaddr hbusy
  refine portStep_busy_congr ?_ hbusy
  rfl

end Sys2Proof.Proofs.Reset
end
